-- ==== Sys2Proof/Word.lean ====
section
/-! DEFINITION. The word types of the block: bytes, data rates, command words. Widths are those of
`00_scope.md` R5 and `30_encoding.md` R80. -/

namespace Sys2Proof

/-- A byte of BUF or of the serial channel (`00_scope.md` section 6). -/
abbrev Byte := BitVec 8

/-- A data rate of the channel, BAUD_W = 32 bits (`00_scope.md` R5, D6). -/
abbrev Rate := BitVec 32

/-- A command word CW of the command port, 16 bits (`30_encoding.md` R80). -/
abbrev CmdWord := BitVec 16

end Sys2Proof
end

