-- ==== Sys2Proof/Syntax.lean ====
section
/-! DEFINITION. The commands of the block: one constructor per row of spec/opcode_table.json, each with
the two operand fields LEN and ARG of its word (`30_encoding.md` R80 to R82). -/

namespace Sys2Proof

/-- A command with its operand fields as they stand in the word (`30_encoding.md` R81). A field that the
table of R82 marks as not used is kept here and ignored by the meaning (R85). -/
inductive Instr where
  /-- `computeChecksum(payload) -> byte` (R102) -/
  | cksum (len : BitVec 4) (arg : Byte)
  /-- `validateChecksum(payload_with_trailing_checksum) -> bool` (R104) -/
  | vcksum (len : BitVec 4) (arg : Byte)
  /-- `generateIdentifier(address) -> byte` (R107) -/
  | genid (len : BitVec 4) (arg : Byte)
  /-- `validateIdentifier(received_byte) -> bool` (R110) -/
  | valid (len : BitVec 4) (arg : Byte)
  /-- `sendBreak()` (R121) -/
  | brk (len : BitVec 4) (arg : Byte)
  /-- `waitForBreak(timeout) -> bool` (R124) -/
  | wbreak (len : BitVec 4) (arg : Byte)
  /-- `sendWakeUp()` (R127) -/
  | wakeup (len : BitVec 4) (arg : Byte)
  /-- `sleep(enterSleep: bool)` (R143) -/
  | sleep (len : BitVec 4) (arg : Byte)
  /-- `write(identifier, payload)` (R152) -/
  | write (len : BitVec 4) (arg : Byte)
  /-- `writeRequest(identifier)` (R156) -/
  | wrreq (len : BitVec 4) (arg : Byte)
  /-- `writeResponse(payload)` (R159) -/
  | wrresp (len : BitVec 4) (arg : Byte)
  /-- `writeStream(payload)` (R162) -/
  | wrstrm (len : BitVec 4) (arg : Byte)
  /-- `read(buffer, maxLen) -> (success, bytesRead)` (R166) -/
  | read (len : BitVec 4) (arg : Byte)
  /-- `readStream(buffer, maxLen) -> bytesRead` (R172) -/
  | rdstrm (len : BitVec 4) (arg : Byte)
  /-- reassignment of `ident` (R112) -/
  | setid (len : BitVec 4) (arg : Byte)
  /-- the reserved opcode 0xF (R84) -/
  | reservedF (len : BitVec 4) (arg : Byte)
deriving DecidableEq, Repr

end Sys2Proof
end

