-- ==== Sys2Proof/WellFormed.lean ====
section
/-! DEFINITION. The commands an assembler emits (`30_encoding.md` R85, R88): a field the command does not
use is zero. The block runs every command, well formed or not (R85, R87); this is the form of the assembler
syntax, no condition on running. -/

namespace Sys2Proof

/-- Whether `i` is a command of the assembler syntax of R88: the fields that the table of R82 marks as not
used are zero (R85), of ARG only bits 5:0 for GENID and bit 0 for SLEEP; the reserved opcode has no syntax. -/
def Instr.wellFormed : Instr → Bool
  | .cksum _ arg => arg == 0#8
  | .vcksum _ arg => arg == 0#8
  | .genid len arg => len == 0#4 && arg.extractLsb' 6 2 == 0#2
  | .valid len _ => len == 0#4
  | .brk len arg => len == 0#4 && arg == 0#8
  | .wbreak len arg => len == 0#4 && arg == 0#8
  | .wakeup len arg => len == 0#4 && arg == 0#8
  | .sleep len arg => len == 0#4 && arg.extractLsb' 1 7 == 0#7
  | .write _ _ => true
  | .wrreq len _ => len == 0#4
  | .wrresp _ arg => arg == 0#8
  | .wrstrm _ arg => arg == 0#8
  | .read _ arg => arg == 0#8
  | .rdstrm _ arg => arg == 0#8
  | .setid len _ => len == 0#4
  | .reservedF _ _ => false

end Sys2Proof
end

