-- ==== Sys2Proof/Decode.lean ====
section
/-! DEFINITION. Decoding and encoding of command words (`30_encoding.md` R80 to R87). The decoder is total
over all 65536 words (R87); the reserved opcode is decoded by name (R84). -/

namespace Sys2Proof

/-- OP = CW[15:12] (`30_encoding.md` R80, R81). -/
def cwOp (w : CmdWord) : BitVec 4 := w.extractLsb' 12 4

/-- LEN = CW[11:8] (`30_encoding.md` R80, R81). -/
def cwLen (w : CmdWord) : BitVec 4 := w.extractLsb' 8 4

/-- ARG = CW[7:0] (`30_encoding.md` R80, R81). -/
def cwArg (w : CmdWord) : Byte := w.extractLsb' 0 8

/-- The opcode map of `30_encoding.md` R82. An opcode is at most 15, so the last line is 0xF alone, the
reserved opcode (R84). -/
def instrOf (op : BitVec 4) (len : BitVec 4) (arg : Byte) : Instr :=
  match op.toNat with
  | 0 => .cksum len arg
  | 1 => .vcksum len arg
  | 2 => .genid len arg
  | 3 => .valid len arg
  | 4 => .brk len arg
  | 5 => .wbreak len arg
  | 6 => .wakeup len arg
  | 7 => .sleep len arg
  | 8 => .write len arg
  | 9 => .wrreq len arg
  | 10 => .wrresp len arg
  | 11 => .wrstrm len arg
  | 12 => .read len arg
  | 13 => .rdstrm len arg
  | 14 => .setid len arg
  | _ => .reservedF len arg

/-- "A decoder is: take CW[15:12], look it up" (`30_encoding.md` R87). -/
def decodeWord (w : CmdWord) : Instr := instrOf (cwOp w) (cwLen w) (cwArg w)

/-- The opcode of a command, the OP column of `30_encoding.md` R82. -/
def Instr.op : Instr → BitVec 4
  | .cksum _ _ => 0x0#4
  | .vcksum _ _ => 0x1#4
  | .genid _ _ => 0x2#4
  | .valid _ _ => 0x3#4
  | .brk _ _ => 0x4#4
  | .wbreak _ _ => 0x5#4
  | .wakeup _ _ => 0x6#4
  | .sleep _ _ => 0x7#4
  | .write _ _ => 0x8#4
  | .wrreq _ _ => 0x9#4
  | .wrresp _ _ => 0xA#4
  | .wrstrm _ _ => 0xB#4
  | .read _ _ => 0xC#4
  | .rdstrm _ _ => 0xD#4
  | .setid _ _ => 0xE#4
  | .reservedF _ _ => 0xF#4

/-- The LEN field of a command. -/
def Instr.len : Instr → BitVec 4
  | .cksum len _ | .vcksum len _ | .genid len _ | .valid len _ | .brk len _ | .wbreak len _
  | .wakeup len _ | .sleep len _ | .write len _ | .wrreq len _ | .wrresp len _ | .wrstrm len _
  | .read len _ | .rdstrm len _ | .setid len _ | .reservedF len _ => len

/-- The ARG field of a command. -/
def Instr.arg : Instr → Byte
  | .cksum _ arg | .vcksum _ arg | .genid _ arg | .valid _ arg | .brk _ arg | .wbreak _ arg
  | .wakeup _ arg | .sleep _ arg | .write _ arg | .wrreq _ arg | .wrresp _ arg | .wrstrm _ arg
  | .read _ arg | .rdstrm _ arg | .setid _ arg | .reservedF _ arg => arg

/-- The word of a command: OP << 12 | LEN << 8 | ARG (`30_encoding.md` R80). -/
def encode (i : Instr) : CmdWord := i.op ++ i.len ++ i.arg

/-- The command this decoder reads from a table word of `nbits` bits; a command is one 16-bit word, bits
above `nbits` are zero (`30_encoding.md` R80; log 1). -/
def decodeTableWord (nbits w : Nat) : Option Instr :=
  if nbits ≤ 16 ∧ w < 2 ^ nbits then some (decodeWord (BitVec.ofNat 16 w)) else none

end Sys2Proof
end

