-- ==== Sys2Proof/Config.lean ====
section
/-! DEFINITION. The constants and parameters of `00_scope.md` R5: what is fixed for the hardware, the
straps sampled at reset, and the OPEN parameters a model takes as arguments. -/

namespace Sys2Proof.Config

/-- T_MAX, "the maximum representable duration": wait for ever (`00_scope.md` R5, `10_state.md` R18). -/
def tMax : BitVec 32 := 0xFFFFFFFF#32

/-- BUF_CAP, the number of bytes in BUF (`00_scope.md` R5). -/
def bufCap : Nat := 16

/-- MAX_PAYLOAD, the largest payload of a frame (`00_scope.md` R5). -/
def maxPayload : Nat := 8

/-- SYNC, the sync byte (`00_scope.md` R5, `30_encoding.md` R72). -/
def sync : Byte := 0x55#8

/-- BREAK_BYTE, the byte sent at a lowered rate to form a break or a wake pulse (`00_scope.md` R5). -/
def breakByte : Byte := 0x00#8

/-- T_SETTLE, the settling delay of SLEEP in microseconds (`00_scope.md` R5). -/
def tSettle : Nat := 20

/-- BREAK_MIN_BITS, the least length of the break's dominant phase in nominal bit-times (`00_scope.md` R5). -/
def breakMinBits : Nat := 13

/-- T_WAKE_MIN in microseconds (`00_scope.md` R5). -/
def tWakeMin : Nat := 250

/-- T_WAKE_MAX in microseconds (`00_scope.md` R5). -/
def tWakeMax : Nat := 500

/-- The bit-times a 0x00 byte holds the bus low at the rate it is sent at: start bit and eight data
bits (`41_bus_signaling.md` R122, D13, G2). PRESUMED, unsafe: the serial byte format is general
knowledge in the spec itself; log 9. Only the pulse lengths of Safety.lean use it. -/
def zeroByteLowBits : Nat := 9

/-- The straps sampled at reset (`70_reset_and_hazards.md` R211). -/
structure Straps where
  /-- P_BAUD, the configured baud rate. -/
  pBaud : Rate
  /-- P_IDENT, the expected identifier byte. -/
  pIdent : Byte
  /-- P_HAS_SLP, whether a control line is configured. -/
  pHasSlp : Bool
deriving DecidableEq, Repr

/-- The strap constraint 2 <= P_BAUD (`00_scope.md` R5, `70_reset_and_hazards.md` R211). -/
abbrev Straps.valid (st : Straps) : Prop := 2 ≤ st.pBaud.toNat

/-- The straps of `State.reset`: those of vector V-REG-1. DESIGN CHOICE, unsafe; log 4. -/
def defaultStraps : Straps := { pBaud := 19200#32, pIdent := 0xC1#8, pHasSlp := true }

/-- The OPEN parameters that a rule reads (`00_scope.md` R5): arguments of the model, never changed by a
step. TIMEOUT_TICK is the unit of the clock `State.now` and needs no number. Log 8. -/
structure Params where
  /-- WAKE_BAUD, the fixed low rate of the wake-up pulse (D9). -/
  wakeBaud : Rate
  /-- READ_CKSUM_INCLUDES_ID, whether READ's checksum covers the identifier byte (D15, C1). -/
  readCksumIncludesId : Bool
deriving DecidableEq, Repr

/-- The range 18000 <= WAKE_BAUD <= 36000 of `00_scope.md` R5 (under the byte format of D13). -/
abbrev Params.valid (p : Params) : Prop := 18000 ≤ p.wakeBaud.toNat ∧ p.wakeBaud.toNat ≤ 36000

/-- The defaults of `00_scope.md` R5. -/
def defaultParams : Params := { wakeBaud := 19200#32, readCksumIncludesId := true }

end Sys2Proof.Config
end

