-- ==== Sys2Proof/Machine/State.lean ====
section
/-! DEFINITION. The state of the block and of its environment as plain data (`10_state.md` R10, R11, R27),
the actions of the other agents (`70_reset_and_hazards.md` R231, R232), the reasons a step can stop, and the
state after reset (R212, R213). -/

namespace Sys2Proof.Machine

open Sys2Proof.Config

/-- The level of the control line (`20_memory.md` R51). -/
inductive Level where
  | low
  | high
deriving DecidableEq, Repr

/-- The mode of the control line's driver; "the block never sets any other mode" (`20_memory.md` R50). -/
inductive LineMode where
  | output
deriving DecidableEq, Repr

/-- One collaborator call of the event trace with its arguments and, for ChanRead, ChanPollFE and Now, its
answer (`20_memory.md` R40, R41). -/
inductive Call where
  | chanOpen (rate : Rate)
  | chanWrite (b : Byte)
  | chanFlush
  | chanRead (maxLen : Nat) (answer : List Byte)
  | chanPollFE (answer : Bool)
  | lineSetMode (mode : LineMode)
  | lineWrite (level : Level)
  | delayUs (n : Nat)
  | timeNow (answer : Nat)
deriving DecidableEq, Repr

/-- The wire event `Wire(b, r)`: a byte put on the wire and the rate it left at (`20_memory.md` R48). -/
structure WireByte where
  byte : Byte
  rate : Rate
deriving DecidableEq, Repr

/-- One move of an agent other than the block and its host (`70_reset_and_hazards.md` R231). -/
inductive Move where
  /-- the Channel Adapter puts the head of its transmit queue on the wire (R48) -/
  | send
  /-- bytes the adapter will answer one ChanRead with (R46); a portion longer than a read's `maxLen` is
  answered in pieces -/
  | receive (portion : List Byte)
  /-- the framing-error signal takes this value (R47) -/
  | signal (asserted : Bool)
  /-- the clock behind Now() advances (R53) -/
  | elapse (ticks : Nat)
deriving DecidableEq, Repr

/-- What the other agents do just before one collaborator call of a command: moves of the environment, and
then the host's reset if it comes there (`70_reset_and_hazards.md` R210, R231). -/
structure Gap where
  moves : List Move
  reset : Option Straps
deriving DecidableEq, Repr

/-- An action between collaborator calls of commands: the host's (`10_state.md` R28, R30,
`70_reset_and_hazards.md` R210, R232), the channel owner's (R232 "opening the channel") or the environment's. -/
inductive Action where
  /-- the host presents a command word on the command port -/
  | command (w : CmdWord)
  /-- RegRead(n) -/
  | regRead (n : BitVec 5)
  /-- RegWrite(n, v) -/
  | regWrite (n : BitVec 5) (v : Nat)
  /-- the host applies reset with these straps -/
  | reset (straps : Straps)
  /-- the channel's owner opens it at a rate, outside the block -/
  | openChannel (rate : Rate)
  /-- an environment agent moves -/
  | move (m : Move)
deriving DecidableEq, Repr

/-- The Channel Adapter (`10_state.md` R11, R27; `20_memory.md` R43 to R49). -/
structure Channel where
  /-- the current data rate; absent until the channel is first opened (R49) -/
  rate : Option Rate
  /-- the bytes queued and not yet transmitted, head first (R44) -/
  txq : List Byte
  /-- the received bytes waiting, in the portions that answer reads (R46) -/
  rx : List (List Byte)
  /-- the framing-error signal (R47) -/
  fe : Bool
deriving DecidableEq, Repr

/-- The physical control line (`20_memory.md` R50, R51); a field is absent while the spec does not define it
(`70_reset_and_hazards.md` R214, U20). -/
structure Line where
  mode : Option LineMode
  level : Option Level
deriving DecidableEq, Repr

/-- The local values of a WBREAK in progress: `T` and `t0` of `41_bus_signaling.md` R124. -/
structure Wait where
  budget : BitVec 32
  t0 : Nat
deriving DecidableEq, Repr

/-- One answer of the register port: RegRead(number) returned value (`10_state.md` R30). -/
structure PortRead where
  number : BitVec 5
  value : BitVec 32
deriving DecidableEq, Repr

/-- BUF as a list of (index, byte): indexes strictly rising, a byte never written not listed. -/
abbrev Memory := List Host.Cell

/-- The state of the block, of its environment, and of the inputs still to come. -/
structure State where
  /-- BAUD, the configured baud rate (`10_state.md` R13) -/
  baud : Rate
  /-- IDENT, the expected identifier byte (R14) -/
  ident : Byte
  /-- SLPCTL: HAS_SLP bit 2, SLP_OE bit 1, SLP_LEVEL bit 0 (section 3.3, R15 to R17) -/
  slpctl : BitVec 3
  /-- TIMEOUT (R18) -/
  timeout : BitVec 32
  /-- STATUS (R19) -/
  status : BitVec 3
  /-- RES (R20) -/
  res : Byte
  /-- COUNT (R21) -/
  count : BitVec 4
  /-- VCOUNT (R21) -/
  vcount : BitVec 4
  /-- BUF (R23, R24) -/
  buf : Memory
  /-- a WBREAK in progress, which holds the host ports (R29) -/
  waiting : Option Wait
  /-- the event trace, oldest first (`20_memory.md` R41) -/
  trace : List Call
  /-- the wire events, oldest first (`20_memory.md` R48) -/
  wire : List WireByte
  /-- the Channel Adapter -/
  chan : Channel
  /-- the control line -/
  line : Line
  /-- the clock behind Now(), in units of TIMEOUT_TICK: an unsigned integer with no stated bound
  (`20_memory.md` R53) -/
  now : Nat
  /-- the OPEN parameters, constant (`00_scope.md` R5) -/
  params : Params
  /-- the actions still to come, first at the head (`70_reset_and_hazards.md` R231) -/
  agenda : List Action
  /-- what the other agents do before each collaborator call still to come (R231, R210) -/
  during : List Gap
  /-- the register port's answers, oldest first (`10_state.md` R30) -/
  portOut : List PortRead
deriving DecidableEq, Repr

/-- Why the machine stops with a fault. -/
inductive Fault where
  /-- A command or RegRead reads BUF[index], which holds no value because nothing has written it since
  reset (`10_state.md` R24, U1). Raised by CKSUM, VCKSUM, WRITE, WRRESP, WRSTRM and RegRead. Safe. -/
  | bufUnwritten (index : Nat)
deriving DecidableEq, Repr

/-- Why the machine refuses to go on. -/
inductive Refusal where
  /-- An instruction that has no meaning yet; raised by no arm of this model. Safe. -/
  | notModelled (mnemonic : String)
  /-- ChanWrite, ChanFlush, ChanRead or ChanPollFE while the channel's rate is undefined (`20_memory.md`
  R49, U2). Raised by WBREAK, WRRESP, READ and RDSTRM on a channel never opened. Safe. -/
  | channelNotOpen
  /-- Reset with P_BAUD below 2 (`70_reset_and_hazards.md` R211, U9). Raised by reset. Safe. -/
  | badStraps
  /-- The owner opens the channel while a command is in progress (`10_state.md` R31, U10). Raised by
  `Action.openChannel` during a WBREAK. Safe. -/
  | channelShared
deriving DecidableEq, Repr

/-- The machine right after reset with the straps of `Config.defaultStraps` (`70_reset_and_hazards.md` R212,
R213): the trace holds the two calls of CFGSLP (R141). The channel is open at P_BAUD and idle, as the boot
requirements R216 items 4 and 5 ask (log 6). DESIGN CHOICE, unsafe: log 4 (straps), log 6 (environment). -/
def State.reset : State where
  baud := 19200#32
  ident := 0xC1#8
  slpctl := 0b110#3
  timeout := 0#32
  status := 0#3
  res := 0#8
  count := 0#4
  vcount := 0#4
  buf := []
  waiting := none
  trace := [.lineSetMode .output, .lineWrite .low]
  wire := []
  chan := { rate := some 19200#32, txq := [], rx := [], fe := false }
  line := { mode := some .output, level := some .low }
  now := 0
  params := defaultParams
  agenda := []
  during := []
  portOut := []

end Sys2Proof.Machine
end

