-- ==== Sys2Proof/Machine/Flags.lean ====
section
/-! DEFINITION. The values the block computes from bytes: frame checksum, identifier parity, boolean
results, status codes, and the fields of SLPCTL. -/

namespace Sys2Proof.Machine

open Sys2Proof.Config

/-- The outcome of a command, by the names of `10_state.md` R19. -/
inductive Status where
  | ok
  | ident
  | checksum
  | timeout
  | short
  | badLen
  | illegal
deriving DecidableEq, Repr

/-- The STATUS code of an outcome (`10_state.md` R19). -/
def Status.code : Status → BitVec 3
  | .ok => 0#3
  | .ident => 1#3
  | .checksum => 2#3
  | .timeout => 3#3
  | .short => 4#3
  | .badLen => 5#3
  | .illegal => 6#3

/-- A boolean result in RES: bit 0, bits 7:1 zero (`10_state.md` R20). -/
def boolRes (b : Bool) : Byte := if b then 1#8 else 0#8

/-- The sum of the bytes in an 8-bit accumulator that wraps, from 0 (`40_frame_codec.md` R100, R101). -/
def byteSum (s : List Byte) : Byte := s.foldl (· + ·) 0#8

/-- `checksum(S)`: the inverted sum (`40_frame_codec.md` R101). -/
def checksum (s : List Byte) : Byte := ~~~ byteSum s

/-- `checksum_valid(F)`, absent for the length error of an empty F (`40_frame_codec.md` R103). -/
def checksumValid (f : List Byte) : Option Bool :=
  match f.getLast? with
  | none => none
  | some c => some (checksum f.dropLast == c)

/-- parity0 of the address in bits 5:0 (`40_frame_codec.md` R105). -/
def parity0 (a : Byte) : Bool :=
  (a.getLsbD 0 ^^ a.getLsbD 1) ^^ (a.getLsbD 2 ^^ a.getLsbD 4)

/-- parity1 of the address in bits 5:0 (`40_frame_codec.md` R105). -/
def parity1 (a : Byte) : Bool :=
  !((a.getLsbD 1 ^^ a.getLsbD 3) ^^ (a.getLsbD 4 ^^ a.getLsbD 5))

/-- `gen_identifier(v)` (`40_frame_codec.md` R106). -/
def genIdentifier (v : Byte) : Byte :=
  let a := v &&& 0x3F#8
  a ||| ((boolRes (parity0 a) ||| (boolRes (parity1 a) <<< 1)) <<< 6)

/-- `identifier_valid(b)`: all 8 bits equal (`40_frame_codec.md` R109). -/
def identifierValid (ident b : Byte) : Bool := b == ident

/-- The field HAS_SLP of SLPCTL (`10_state.md` section 3.3). -/
def hasSlp (slpctl : BitVec 3) : Bool := slpctl.getLsbD 2

/-- The field SLP_OE of SLPCTL (`10_state.md` section 3.3). -/
def slpOe (slpctl : BitVec 3) : Bool := slpctl.getLsbD 1

/-- The field SLP_LEVEL of SLPCTL (`10_state.md` section 3.3). -/
def slpLevel (slpctl : BitVec 3) : Bool := slpctl.getLsbD 0

/-- SLPCTL with its field SLP_LEVEL replaced, the others kept. -/
def withSlpLevel (slpctl : BitVec 3) (b : Bool) : BitVec 3 :=
  (slpctl &&& 0b110#3) ||| (if b then 0b001#3 else 0b000#3)

/-- The line level that a bit asks for: 1 = high, 0 = low (`20_memory.md` R51, `42_transceiver_control.md` R140). -/
def levelOf (b : Bool) : Level := if b then .high else .low

end Sys2Proof.Machine
end

