-- ==== Sys2Proof/Machine/Ops.lean ====
section
/-! DEFINITION. The shared operations: BUF, the end of a command, an error, reset, the environment's moves,
and the nine collaborator calls (`20_memory.md` R40 to R54). -/

namespace Sys2Proof.Machine

open Sys2Proof.Config

/-- The outcome of a step of this machine. -/
abbrev Out := Host.Outcome State Fault Refusal

/-! ### BUF (`10_state.md` R23, R24) -/

/-- The canonical form of BUF: indexes strictly rising and inside BUF (an unlisted byte has no value, so no
entry can equal what an unlisted index reads as). -/
abbrev Memory.wf (m : Memory) : Prop :=
  m.Pairwise (fun c d => c.1 < d.1) ∧ ∀ c ∈ m, c.1 < bufCap

/-- The byte at an index, absent when nothing has written it since reset (`10_state.md` R24). -/
def Memory.readByte : Memory → Nat → Option Byte
  | [], _ => none
  | (a, b) :: m, i => if a = i then some b else Memory.readByte m i

/-- Write one byte, keeping the canonical form. -/
def Memory.writeByte : Memory → Nat → Byte → Memory
  | [], i, v => [(i, v)]
  | (a, b) :: m, i, v =>
    if i < a then (i, v) :: (a, b) :: m
    else if i = a then (i, v) :: m
    else (a, b) :: Memory.writeByte m i v

/-- MemRead(addr, n): n bytes in ascending order, or the first index that holds no value
(`00_scope.md` section 7). -/
def Memory.readBytes (m : Memory) (addr : Nat) : Nat → Except Nat (List Byte)
  | 0 => .ok []
  | n + 1 =>
    match m.readByte addr with
    | none => .error addr
    | some b =>
      match m.readBytes (addr + 1) n with
      | .error i => .error i
      | .ok bs => .ok (b :: bs)

/-- MemWrite(addr, n, v): the bytes in ascending order (`00_scope.md` section 7). -/
def Memory.writeBytes (m : Memory) (addr : Nat) : List Byte → Memory
  | [] => m
  | b :: bs => Memory.writeBytes (m.writeByte addr b) (addr + 1) bs

/-! ### The end of a command, and an error -/

/-- The end of a command: the four result registers are written together and the ports are released
(`10_state.md` R22, R29). -/
def State.endCommand (s : State) (st : Status) (res : Byte) (count vcount : BitVec 4) : State :=
  { s with status := st.code, res := res, count := count, vcount := vcount, waiting := none }

/-- `raise <Status>`: the shared operation of every error (`60_exceptions.md` R190). STATUS takes the code,
COUNT is as far as the rule has set it, RES = 0 and VCOUNT = 0; nothing is saved, no control is transferred,
and there is no return from it (R191). -/
def State.raise (s : State) (st : Status) (count : BitVec 4) : State :=
  s.endCommand st 0#8 count 0#4

/-! ### Reset (`70_reset_and_hazards.md` R210 to R214) -/

/-- Append a call to the event trace (`20_memory.md` R41). -/
def State.logged (s : State) (c : Call) : State := { s with trace := s.trace ++ [c] }

/-- CFGSLP: set the line to output and drive it low, when a control line is configured
(`42_transceiver_control.md` R141). Without one no call is made and the line is not defined
(`70_reset_and_hazards.md` R214; log 7). -/
def cfgSlp (s : State) : State :=
  if hasSlp s.slpctl then
    { (s.logged (.lineSetMode .output)).logged (.lineWrite .low) with
      line := { mode := some .output, level := some .low }
      slpctl := withSlpLevel (s.slpctl ||| 0b010#3) false }
  else { s with line := { mode := none, level := none } }

/-- The reset sequence of R212: registers from the straps, results zero, BUF without value (R24), no command
in progress, an empty trace, then CFGSLP. The Channel Adapter is not touched (R214). -/
def resetSequence (st : Straps) (s : State) : State :=
  cfgSlp { s with
    baud := st.pBaud, ident := st.pIdent,
    slpctl := if st.pHasSlp then 0b100#3 else 0b000#3,
    timeout := 0#32, status := Status.ok.code, res := 0#8, count := 0#4, vcount := 0#4,
    buf := [], waiting := none, trace := [] }

/-- Reset as the host applies it; straps outside their constraint have no meaning (R211, U9; log 17). -/
def applyReset (st : Straps) (s : State) : Out :=
  if 2 ≤ st.pBaud.toNat then .next (resetSequence st s) else .refused .badStraps

/-! ### The other agents (`70_reset_and_hazards.md` R231) -/

/-- The Channel Adapter puts the head of its queue on the wire at the current rate (`20_memory.md` R48); at an
undefined rate, or with an empty queue, it cannot move. -/
def adapterSend (s : State) : State :=
  match s.chan.rate, s.chan.txq with
  | some r, b :: q =>
    { s with chan := { s.chan with txq := q }, wire := s.wire ++ [{ byte := b, rate := r }] }
  | _, _ => s

/-- One move of the environment. -/
def applyMove (m : Move) (s : State) : State :=
  match m with
  | .send => adapterSend s
  | .receive p => { s with chan := { s.chan with rx := s.chan.rx ++ [p] } }
  | .signal b => { s with chan := { s.chan with fe := b } }
  | .elapse n => { s with now := s.now + n }

/-- Moves of the environment, in order. -/
def applyMoves : List Move → State → State
  | [], s => s
  | m :: ms, s => applyMoves ms (applyMove m s)

/-! ### Running the calls of a command -/

/-- How far a command has come: it goes on with a value, or its run is over (a reset has abandoned it, or the
machine has stopped). -/
inductive Run (α : Type) where
  | going (a : α) (s : State)
  | halted (o : Out)

/-- Go on with the next part of a command. -/
def Run.bind {α β : Type} (r : Run α) (k : α → State → Run β) : Run β :=
  match r with
  | .going a s => k a s
  | .halted o => .halted o

/-- The last part of a command. -/
def Run.finish {α : Type} (r : Run α) (k : α → State → Out) : Out :=
  match r with
  | .going a s => k a s
  | .halted o => o

/-- What happens just before a collaborator call: the environment's moves, then the host's reset if it comes
here, which abandons the command (`70_reset_and_hazards.md` R210, R231; logs 2 and 13). -/
def enterCall (s : State) : Run Unit :=
  match s.during with
  | [] => .going () s
  | g :: rest =>
    match g.reset with
    | none => .going () (applyMoves g.moves { s with during := rest })
    | some st => .halted (applyReset st (applyMoves g.moves { s with during := rest }))

/-- The rate of the channel, or the refusal of its use at an undefined rate (`20_memory.md` R49; log 12). -/
def needRate (s : State) : Run Rate :=
  match s.chan.rate with
  | some r => .going r s
  | none => .halted (.refused .channelNotOpen)

/-- The channel's rate replaced (`20_memory.md` R43). -/
def State.setRate (s : State) (r : Rate) : State := { s with chan := { s.chan with rate := some r } }

/-- A byte added at the end of the transmit queue (`20_memory.md` R44). -/
def State.queued (s : State) (b : Byte) : State := { s with chan := { s.chan with txq := s.chan.txq ++ [b] } }

/-- Every queued byte moved to the wire, in order, at a rate (`20_memory.md` R45, R48). -/
def State.flushed (s : State) (r : Rate) : State :=
  { s with
    chan := { s.chan with txq := [] },
    wire := s.wire ++ s.chan.txq.map (fun b => { byte := b, rate := r }) }

/-- The received bytes still waiting replaced (`20_memory.md` R46). -/
def State.setRx (s : State) (rx : List (List Byte)) : State := { s with chan := { s.chan with rx := rx } }

/-- The control line driven to a level (`20_memory.md` R51). -/
def State.setLevel (s : State) (l : Level) : State := { s with line := { s.line with level := some l } }

/-- ChanOpen(rate): sets the current rate and nothing else (`20_memory.md` R43). -/
def chanOpen (r : Rate) (s : State) : Run Unit :=
  (enterCall s).bind fun _ s =>
    .going () ((s.setRate r).logged (.chanOpen r))

/-- ChanWrite(b): queues a byte and does not wait (`20_memory.md` R44). -/
def chanWrite (b : Byte) (s : State) : Run Unit :=
  (enterCall s).bind fun _ s =>
    (needRate s).bind fun _ s =>
      .going () ((s.queued b).logged (.chanWrite b))

/-- writeBytes(buffer): ChanWrite of each byte in ascending order (`20_memory.md` R44). -/
def chanWrites : List Byte → State → Run Unit
  | [], s => .going () s
  | b :: bs, s => (chanWrite b s).bind fun _ s => chanWrites bs s

/-- ChanFlush(): returns when every queued byte has left, in order, at the current rate (`20_memory.md` R45,
R48). -/
def chanFlush (s : State) : Run Unit :=
  (enterCall s).bind fun _ s =>
    (needRate s).bind fun r s =>
      .going () ((s.flushed r).logged .chanFlush)

/-- The bytes a read of at most `maxLen` is answered with: of the first waiting portion (`20_memory.md` R46; log 11). -/
def rxAnswer (maxLen : Nat) : List (List Byte) → List Byte
  | [] => []
  | p :: _ => p.take maxLen

/-- What waits after that read: the bytes returned are consumed (`20_memory.md` R46). -/
def rxAfter (maxLen : Nat) : List (List Byte) → List (List Byte)
  | [] => []
  | p :: rest => if p.length ≤ maxLen then rest else p.drop maxLen :: rest

/-- ChanRead(maxLen): the bytes the adapter answers with, at most `maxLen`, which are consumed
(`20_memory.md` R46). -/
def chanRead (maxLen : Nat) (s : State) : Run (List Byte) :=
  (enterCall s).bind fun _ s =>
    (needRate s).bind fun _ s =>
      .going (rxAnswer maxLen s.chan.rx)
        ((s.setRx (rxAfter maxLen s.chan.rx)).logged (.chanRead maxLen (rxAnswer maxLen s.chan.rx)))

/-- ChanPollFE(): one sample of the framing-error signal, which stays as it is (`20_memory.md` R47, R58). -/
def chanPollFE (s : State) : Run Bool :=
  (enterCall s).bind fun _ s =>
    (needRate s).bind fun _ s => .going s.chan.fe (s.logged (.chanPollFE s.chan.fe))

/-- LineWrite(level): drives the control line (`20_memory.md` R51). -/
def lineWrite (l : Level) (s : State) : Run Unit :=
  (enterCall s).bind fun _ s =>
    .going () ((s.setLevel l).logged (.lineWrite l))

/-- DelayUs(n): recorded, no model time passes (`20_memory.md` R52). -/
def delayUs (n : Nat) (s : State) : Run Unit :=
  (enterCall s).bind fun _ s => .going () (s.logged (.delayUs n))

/-- Now(): the clock's reading (`20_memory.md` R53). -/
def timeNow (s : State) : Run Nat :=
  (enterCall s).bind fun _ s => .going s.now (s.logged (.timeNow s.now))

end Sys2Proof.Machine
end

