-- ==== Sys2Proof/Machine/Operands.lean ====
section
/-! DEFINITION. The operand forms of the commands (`30_encoding.md` R81): the byte sequence BUF[0 .. LEN-1],
the address ARG[5:0], the bit ARG[0], half of BAUD, and the number of bytes read. -/

namespace Sys2Proof.Machine

open Sys2Proof.Config

/-- The byte sequence BUF[0 .. LEN-1]; a byte without value faults (`30_encoding.md` R81, `10_state.md` R24). -/
def withPayload (len : BitVec 4) (s : State) (k : List Byte → Out) : Out :=
  match s.buf.readBytes 0 len.toNat with
  | .error i => .fault (.bufUnwritten i)
  | .ok p => k p

/-- `enterSleep` = ARG[0] (`30_encoding.md` R81, `42_transceiver_control.md` R143). -/
def enterSleep (arg : Byte) : Bool := arg.getLsbD 0

/-- `BAUD div 2`, rounded down (`41_bus_signaling.md` R121, D8). -/
def halfRate (r : Rate) : Rate := r / 2#32

/-- LEN exceeds MAX_PAYLOAD (`43_frame_operations.md` R151). -/
def lenTooLong (len : BitVec 4) : Bool := maxPayload < len.toNat

/-- The number of bytes read, as COUNT and VCOUNT hold it (`10_state.md` R21). -/
def countOf (bytes : List Byte) : BitVec 4 := BitVec.ofNat 4 bytes.length

/-- The bytes READ's checksum test sums, of the bytes read: all but the last, with or without the first
(`43_frame_operations.md` R166, READ_CKSUM_INCLUDES_ID). -/
def summedBytes (includesId : Bool) (bytes : List Byte) : List Byte :=
  if includesId then bytes.dropLast else bytes.dropLast.drop 1

end Sys2Proof.Machine
end

