-- ==== Sys2Proof/Machine/Codec.lean ====
section
/-! DEFINITION. The Frame Codec commands CKSUM, VCKSUM, GENID, VALID, SETID (`40_frame_codec.md`) and the
reserved opcode (`30_encoding.md` R84). None makes a collaborator call. -/

namespace Sys2Proof.Machine

/-- CKSUM (`40_frame_codec.md` R102). -/
def execCksum (len : BitVec 4) (s : State) : Out :=
  withPayload len s fun p => .next (s.endCommand .ok (checksum p) 0#4 0#4)

/-- VCKSUM (`40_frame_codec.md` R104): the length error is tested before BUF is read. -/
def execVcksum (len : BitVec 4) (s : State) : Out :=
  if len = 0#4 then .next (s.raise .short 0#4)
  else withPayload len s fun f =>
    match checksumValid f with
    | none => .next (s.raise .short 0#4)
    | some true => .next (s.endCommand .ok (boolRes true) 0#4 0#4)
    | some false => .next (s.raise .checksum 0#4)

/-- GENID (`40_frame_codec.md` R107). -/
def execGenid (arg : Byte) (s : State) : Out :=
  .next (s.endCommand .ok (genIdentifier arg) 0#4 0#4)

/-- VALID (`40_frame_codec.md` R110). -/
def execValid (arg : Byte) (s : State) : Out :=
  if identifierValid s.ident arg then .next (s.endCommand .ok (boolRes true) 0#4 0#4)
  else .next (s.raise .ident 0#4)

/-- IDENT replaced (`10_state.md` R14). -/
def State.setIdent (s : State) (b : Byte) : State := { s with ident := b }

/-- SETID (`40_frame_codec.md` R112). -/
def execSetid (arg : Byte) (s : State) : Out :=
  .next ((s.setIdent arg).endCommand .ok 0#8 0#4 0#4)

/-- The reserved opcode 0xF (`30_encoding.md` R84, `60_exceptions.md` R186). -/
def execReservedF (s : State) : Out := .next (s.raise .illegal 0#4)

end Sys2Proof.Machine
end

