-- ==== Sys2Proof/Machine/Signaling.lean ====
section
/-! DEFINITION. The Bus Signaling commands BREAK, WBREAK, WAKEUP (`41_bus_signaling.md`). -/

namespace Sys2Proof.Machine

open Sys2Proof.Config

/-- A long dominant pulse: one zero byte at a lowered rate, flushed, then the normal rate
(`41_bus_signaling.md` R120). -/
def pulse (lowered normal : Rate) (s : State) : Run Unit :=
  (chanOpen lowered s).bind fun _ s =>
    (chanWrite breakByte s).bind fun _ s =>
      (chanFlush s).bind fun _ s => chanOpen normal s

/-- The four calls of a break (`41_bus_signaling.md` R121). -/
def sendBreak (s : State) : Run Unit := pulse (halfRate s.baud) s.baud s

/-- BREAK (`41_bus_signaling.md` R121). -/
def execBreak (s : State) : Out :=
  (sendBreak s).finish fun _ s => .next (s.endCommand .ok 0#8 0#4 0#4)

/-- WBREAK stays in progress with its locals; no result register is written (`10_state.md` R22, R29). -/
def State.keepWaiting (s : State) (w : Wait) : State := { s with waiting := some w }

/-- The end of one pass of WBREAK's loop after a sample that was 0: the time test, made only when the budget
is finite; a pass that does not end the command leaves it in progress (`41_bus_signaling.md` R124). -/
def waitTimeTest (w : Wait) (s : State) : Out :=
  if w.budget = tMax then .next (s.keepWaiting w)
  else (timeNow s).finish fun t s =>
    if w.budget.toNat ≤ t - w.t0 then .next (s.raise .timeout 0#4)
    else .next (s.keepWaiting w)

/-- One pass of WBREAK's polling loop: the sample comes before the time test (`41_bus_signaling.md` R124). -/
def waitPass (w : Wait) (s : State) : Out :=
  (chanPollFE s).finish fun fe s =>
    if fe then .next (s.endCommand .ok (boolRes true) 0#4 0#4) else waitTimeTest w s

/-- WBREAK (`41_bus_signaling.md` R124): T and t0 are taken, then the first pass of the loop is made; the
later passes are steps of their own (log 3). -/
def execWbreak (s : State) : Out :=
  (timeNow s).finish fun t0 s => waitPass { budget := s.timeout, t0 := t0 } s

/-- WAKEUP (`41_bus_signaling.md` R127). -/
def execWakeup (s : State) : Out :=
  (pulse s.params.wakeBaud s.baud s).finish fun _ s => .next (s.endCommand .ok 0#8 0#4 0#4)

end Sys2Proof.Machine
end

