-- ==== Sys2Proof/Machine/Frames.lean ====
section
/-! DEFINITION. The frame commands WRITE, WRREQ, WRRESP, WRSTRM, READ, RDSTRM (`43_frame_operations.md`). -/

namespace Sys2Proof.Machine

open Sys2Proof.Config

/-- `send_header(id)`: break, sync byte, identifier byte as given (`43_frame_operations.md` R150). -/
def sendHeader (id : Byte) (s : State) : Run Unit :=
  (sendBreak s).bind fun _ s => (chanWrite sync s).bind fun _ s => chanWrite id s

/-- The end of a transmit command, when its last byte is queued (`43_frame_operations.md` R153). -/
def endTransmit (r : Run Unit) : Out :=
  r.finish fun _ s => .next (s.endCommand .ok 0#8 0#4 0#4)

/-- WRITE (`43_frame_operations.md` R152): length test, payload, header, payload bytes, checksum. -/
def execWrite (len : BitVec 4) (arg : Byte) (s : State) : Out :=
  if lenTooLong len then .next (s.raise .badLen 0#4)
  else withPayload len s fun p =>
    endTransmit ((sendHeader arg s).bind fun _ s => chanWrites (p ++ [checksum p]) s)

/-- WRREQ (`43_frame_operations.md` R156). -/
def execWrreq (arg : Byte) (s : State) : Out := endTransmit (sendHeader arg s)

/-- WRRESP (`43_frame_operations.md` R159). -/
def execWrresp (len : BitVec 4) (s : State) : Out :=
  if lenTooLong len then .next (s.raise .badLen 0#4)
  else withPayload len s fun p => endTransmit (chanWrites (p ++ [checksum p]) s)

/-- WRSTRM (`43_frame_operations.md` R162): the stored identifier, no checksum. -/
def execWrstrm (len : BitVec 4) (s : State) : Out :=
  if lenTooLong len then .next (s.raise .badLen 0#4)
  else withPayload len s fun p =>
    endTransmit ((sendHeader s.ident s).bind fun _ s => chanWrites p s)

/-- Put the bytes read into BUF[0 .. n-1] (`43_frame_operations.md` R166, R172, R176). -/
def storeRead (bytes : List Byte) (s : State) : State := { s with buf := s.buf.writeBytes 0 bytes }

/-- The four tests of READ on the bytes read, in order (`43_frame_operations.md` R166,
`60_exceptions.md` R189). -/
def judgeRead (bytes : List Byte) (s : State) : State :=
  match bytes with
  | [] => s.raise .short 0#4
  | first :: rest =>
    if identifierValid s.ident first then
      match rest.getLast? with
      | none => s.raise .short (countOf bytes)
      | some last =>
        if checksum (summedBytes s.params.readCksumIncludesId bytes) = last then
          s.endCommand .ok 0#8 (countOf bytes) (countOf bytes)
        else s.raise .checksum (countOf bytes)
    else s.raise .ident (countOf bytes)

/-- READ (`43_frame_operations.md` R166). -/
def execRead (len : BitVec 4) (s : State) : Out :=
  (chanRead len.toNat s).finish fun bytes s => .next (judgeRead bytes (storeRead bytes s))

/-- RDSTRM (`43_frame_operations.md` R172). -/
def execRdstrm (len : BitVec 4) (s : State) : Out :=
  (chanRead len.toNat s).finish fun bytes s =>
    .next ((storeRead bytes s).endCommand .ok 0#8 (countOf bytes) 0#4)

end Sys2Proof.Machine
end

