-- ==== Sys2Proof/Machine/Transceiver.lean ====
section
/-! DEFINITION. The Transceiver Control command SLEEP (`42_transceiver_control.md` R143). CFGSLP, the reset
step, stands with reset in Ops.lean. -/

namespace Sys2Proof.Machine

open Sys2Proof.Config

/-- SLPCTL.SLP_LEVEL replaced (`42_transceiver_control.md` R143). -/
def State.setSlpLevel (s : State) (b : Bool) : State := { s with slpctl := withSlpLevel s.slpctl b }

/-- Drive the control line to ask for sleep or normal mode, then settle (`42_transceiver_control.md` R143). -/
def driveLine (b : Bool) (s : State) : Run Unit :=
  (lineWrite (levelOf b) s).bind fun _ s =>
    delayUs tSettle (s.setSlpLevel b)

/-- SLEEP (`42_transceiver_control.md` R143): without a control line no call is made (D23). -/
def execSleep (arg : Byte) (s : State) : Out :=
  if hasSlp s.slpctl then
    (driveLine (enterSleep arg) s).finish fun _ s => .next (s.endCommand .ok 0#8 0#4 0#4)
  else .next (s.endCommand .ok 0#8 0#4 0#4)

end Sys2Proof.Machine
end

