-- ==== Sys2Proof/Machine/Dispatch.lean ====
section
/-! DEFINITION. One arm per command: its meaning (`30_encoding.md` R82, R87). A meaning is given the operand
fields that the table of R82 marks as used; the others are ignored (R85). -/

namespace Sys2Proof.Machine

/-- The effect of one command. -/
def exec (i : Instr) (s : State) : Host.Outcome State Fault Refusal :=
  match i with
  | .cksum len _ => Sys2Proof.Machine.execCksum len s
  | .vcksum len _ => Sys2Proof.Machine.execVcksum len s
  | .genid _ arg => Sys2Proof.Machine.execGenid arg s
  | .valid _ arg => Sys2Proof.Machine.execValid arg s
  | .brk _ _ => Sys2Proof.Machine.execBreak s
  | .wbreak _ _ => Sys2Proof.Machine.execWbreak s
  | .wakeup _ _ => Sys2Proof.Machine.execWakeup s
  | .sleep _ arg => Sys2Proof.Machine.execSleep arg s
  | .write len arg => Sys2Proof.Machine.execWrite len arg s
  | .wrreq _ arg => Sys2Proof.Machine.execWrreq arg s
  | .wrresp len _ => Sys2Proof.Machine.execWrresp len s
  | .wrstrm len _ => Sys2Proof.Machine.execWrstrm len s
  | .read len _ => Sys2Proof.Machine.execRead len s
  | .rdstrm len _ => Sys2Proof.Machine.execRdstrm len s
  | .setid _ arg => Sys2Proof.Machine.execSetid arg s
  | .reservedF _ _ => Sys2Proof.Machine.execReservedF s

end Sys2Proof.Machine
end

