-- ==== Sys2Proof/Machine/Port.lean ====
section
/-! DEFINITION. The host's side of the block: accepting a command word, the register port, reset, and the
turns of the other agents (`10_state.md` R28 to R30, `70_reset_and_hazards.md` R210, R231, R232). -/

namespace Sys2Proof.Machine

open Sys2Proof.Config

/-- The value RegRead(n) returns; BUF bytes without value have none (`10_state.md` section 3, R24, R30). -/
def regValue (n : BitVec 5) (s : State) : Except Nat (BitVec 32) :=
  match n.toNat with
  | 0 => .ok s.baud
  | 1 => .ok (s.ident.setWidth 32)
  | 2 => .ok (s.slpctl.setWidth 32)
  | 3 => .ok s.timeout
  | 4 => .ok (s.status.setWidth 32)
  | 5 => .ok (s.res.setWidth 32)
  | 6 => .ok (s.count.setWidth 32)
  | 7 => .ok (s.vcount.setWidth 32)
  | k =>
    if k < 16 then .ok 0#32
    else match s.buf.readByte (k - 16) with
      | none => .error (k - 16)
      | some b => .ok (b.setWidth 32)

/-- RegRead(n) (`10_state.md` R30): the value goes to the host. -/
def regRead (n : BitVec 5) (s : State) : Out :=
  match regValue n s with
  | .error i => .fault (.bufUnwritten i)
  | .ok v => .next { s with portOut := s.portOut ++ [{ number := n, value := v }] }

/-- RegWrite(n, v) (`10_state.md` R30): TIMEOUT and BUF only, the value truncated to the register's width. -/
def regWrite (n : BitVec 5) (v : Nat) (s : State) : State :=
  if n.toNat = 3 then { s with timeout := BitVec.ofNat 32 v }
  else if 16 ≤ n.toNat then { s with buf := s.buf.writeByte (n.toNat - 16) (BitVec.ofNat 8 v) }
  else s

/-- The command the block accepts next, if the ports are free and the host presents one
(`10_state.md` R28, R29): its word and the state without it on the agenda. -/
def nextCommand (s : State) : Option (CmdWord × State) :=
  match s.waiting, s.agenda with
  | none, .command w :: rest => some (w, { s with agenda := rest })
  | _, _ => none

/-- The block's own turn: a WBREAK in progress makes its next pass, otherwise the block idles
(`10_state.md` R29, `60_exceptions.md` R188). -/
def blockTurn (s : State) : Out :=
  match s.waiting with
  | some w => waitPass w s
  | none => .next s

/-- A turn on the register port: held while a command is in progress (`10_state.md` R29), and then the block
goes on. -/
def portTurn (s : State) (served : Out) : Out :=
  match s.waiting with
  | some w => waitPass w s
  | none => served

/-- A turn in which no command is accepted (`70_reset_and_hazards.md` R231). Reset and the environment move at
any time, the register port between commands, and the owner may not open the channel during a command (U10; log 14). -/
def otherTurn (s : State) : Out :=
  match s.agenda with
  | [] => blockTurn s
  | .command _ :: _ => blockTurn s
  | .regRead n :: rest => portTurn s (regRead n { s with agenda := rest })
  | .regWrite n v :: rest => portTurn s (.next (regWrite n v { s with agenda := rest }))
  | .reset st :: rest => applyReset st { s with agenda := rest }
  | .openChannel r :: rest =>
    match s.waiting with
    | some _ => .refused .channelShared
    | none => .next { s with agenda := rest, chan := { s.chan with rate := some r } }
  | .move m :: rest => .next (applyMove m { s with agenda := rest })

/-- The state with a command word placed where the next step accepts it: at the head of the agenda, the ports
free (`10_state.md` R28, R29; log 10). -/
def placeCommand (w : CmdWord) (s : State) : State :=
  { s with waiting := none, agenda := .command w :: s.agenda }

end Sys2Proof.Machine
end

