-- ==== Sys2Proof/Machine/Step.lean ====
section
/-! DEFINITION. One step of the machine: the block accepts and performs a command, or another agent has its
turn (`70_reset_and_hazards.md` R231). -/

namespace Sys2Proof.Machine

/-- One step. A command on the agenda is accepted when the ports are free, decoded and performed; every other
turn is `otherTurn`. -/
def step (s : State) : Host.Outcome State Fault Refusal :=
  match nextCommand s with
  | some (w, s') => exec (decodeWord w) s'
  | none => otherTurn s

/-- `s` with the table word placed where the next step accepts its command. -/
def State.withFetchWord (s : State) (nbits w : Nat) : State :=
  placeCommand (BitVec.ofNat 16 (w % 2 ^ nbits)) s

end Sys2Proof.Machine
end

