-- ==== Sys2Proof/Safety.lean ====
section
/-! DEFINITION. The terms in which claims about the block are made: what holds of every state a run reaches,
the host's duties of `70_reset_and_hazards.md` R216 and R221, how a command ends and what it leaves unchanged,
and the pulse lengths of R230. -/

namespace Sys2Proof.Machine

open Sys2Proof.Config

/-! ### TransceiverState -/

/-- TransceiverState, "binary state {Sleep, Normal}" (`10_state.md` R15). -/
inductive Transceiver where
  | sleep
  | normal
deriving DecidableEq, Repr

/-- TransceiverState as SLPCTL defines it: absent without a control line (`10_state.md` R15). -/
def State.transceiver (s : State) : Option Transceiver :=
  if hasSlp s.slpctl && slpOe s.slpctl then
    some (if slpLevel s.slpctl then .sleep else .normal)
  else none

/-! ### The invariant -/

/-- 2 <= BAUD: the strap constraint of R211, BAUD being constant after reset (`10_state.md` R13). -/
abbrev State.baudValid (s : State) : Prop := 2 ≤ s.baud.toNat

/-- SLP_OE equals HAS_SLP, and SLP_LEVEL is 0 without a control line (`10_state.md` R17). -/
abbrev State.slpctlLegal (s : State) : Prop :=
  slpOe s.slpctl = hasSlp s.slpctl ∧ (hasSlp s.slpctl = false → slpLevel s.slpctl = false)

/-- With a control line, the line is an output at the level of SLP_LEVEL (`20_memory.md` R51). -/
abbrev State.lineAgrees (s : State) : Prop :=
  hasSlp s.slpctl = true →
    s.line.mode = some .output ∧ s.line.level = some (levelOf (slpLevel s.slpctl))

/-- STATUS is one of the codes 0 to 6 (`10_state.md` R19); VCOUNT is COUNT after ST_OK or 0, and 0 after every
error (R21). -/
abbrev State.resultsLegal (s : State) : Prop :=
  s.status ≠ 7#3 ∧ (s.vcount = 0#4 ∨ s.vcount = s.count) ∧ (s.status ≠ 0#3 → s.vcount = 0#4)

/-- The locals of a WBREAK in progress: T is TIMEOUT, t0 lies in the past, the channel is open
(`41_bus_signaling.md` R124, `10_state.md` R29). -/
abbrev State.waitLegal (s : State) : Prop :=
  ∀ w, s.waiting = some w → w.budget = s.timeout ∧ w.t0 ≤ s.now ∧ s.chan.rate.isSome = true

/-- Bytes are queued only on a channel whose rate is defined (`20_memory.md` R49). -/
abbrev State.queueHasRate (s : State) : Prop := s.chan.txq ≠ [] → s.chan.rate.isSome = true

/-- What every step keeps. -/
structure State.Inv (s : State) : Prop where
  buf : Memory.wf s.buf
  baud : s.baudValid
  slpctl : s.slpctlLegal
  line : s.lineAgrees
  results : s.resultsLegal
  wait : s.waitLegal
  queue : s.queueHasRate
  params : s.params.valid

/-! ### The host's duties and other premises -/

/-- No reset comes during the commands still to come (`70_reset_and_hazards.md` R210). -/
abbrev State.noReset (s : State) : Prop := ∀ g ∈ s.during, g.reset = none

/-- The channel has been opened (`70_reset_and_hazards.md` R216 item 4). -/
abbrev State.channelOpen (s : State) : Prop := s.chan.rate.isSome = true

/-- BUF[0 .. len(p)-1] holds the bytes `p` (`70_reset_and_hazards.md` R216 item 6). -/
abbrev State.holds (s : State) (p : List Byte) : Prop :=
  ∀ k, (h : k < p.length) → s.buf.readByte k = some p[k]

/-! ### How a command ends, and its frame -/

/-- `t` is `s` after a command ended with these four results, having appended the calls `cs` to the trace.
Everything else of the block, BUF, the control line, the parameters and the host's agenda are as before; only the
channel, the wire, the clock and the consumed gaps may differ, of which `envMoved` speaks. -/
abbrev State.endedAs (s t : State) (st : Status) (res : Byte) (count vcount : BitVec 4)
    (cs : List Call) : Prop :=
  t = { s with
    status := st.code, res := res, count := count, vcount := vcount, waiting := none,
    trace := s.trace ++ cs,
    chan := t.chan, wire := t.wire, now := t.now, during := t.during }

/-- `t` is `s` with a WBREAK in progress with locals `w`, having appended the calls `cs`: no result register is
written (`10_state.md` R22), everything else as in `endedAs`. -/
abbrev State.waitsAs (s t : State) (w : Wait) (cs : List Call) : Prop :=
  t = { s with
    waiting := some w, trace := s.trace ++ cs,
    chan := t.chan, wire := t.wire, now := t.now, during := t.during }

/-- The bytes of the ChanWrite calls, in order. -/
def bytesWritten : List Call → List Byte
  | [] => []
  | .chanWrite b :: cs => b :: bytesWritten cs
  | _ :: cs => bytesWritten cs

/-- The bytes on the wire, in order. -/
def wireBytes (w : List WireByte) : List Byte := w.map (·.byte)

/-- What a command that made the calls `cs` leaves of the environment. Bytes leave in queue order and none is
lost (`20_memory.md` R48, R60): what was on the wire stays, and wire then queue grow by the bytes written. The
clock never goes back (R53). One gap is consumed a call. -/
abbrev State.envMoved (s t : State) (cs : List Call) : Prop :=
  s.wire <+: t.wire ∧
  wireBytes t.wire ++ t.chan.txq = wireBytes s.wire ++ s.chan.txq ++ bytesWritten cs ∧
  s.now ≤ t.now ∧
  t.during = s.during.drop cs.length

/-- The received bytes waiting are those before, and what arrived since (`20_memory.md` R46). -/
abbrev State.rxKept (s t : State) : Prop := ∃ arrived, t.chan.rx = s.chan.rx ++ arrived

/-- What the calls `cs` of a command that reads no bytes leave of the environment: `envMoved`, the received bytes
kept. -/
abbrev State.envKept (s t : State) (cs : List Call) : Prop := s.envMoved t cs ∧ s.rxKept t

/-- The outcome `t` of one pass of WBREAK's loop with locals `w`, from `s`, after the calls `pre` of the same step
(`41_bus_signaling.md` R124): a sample of 1 ends it with RES = 1; after a sample of 0 the time is tested when the
budget is finite, and the command ends with ST_TIMEOUT or goes on waiting. -/
def State.passOutcome (s t : State) (w : Wait) (pre : List Call) : Prop :=
  t.chan.rate = s.chan.rate ∧
  ((s.endedAs t .ok 1#8 0#4 0#4 (pre ++ [.chanPollFE true]) ∧
      s.envKept t (pre ++ [.chanPollFE true])) ∨
   (w.budget = tMax ∧ s.waitsAs t w (pre ++ [.chanPollFE false]) ∧
      s.envKept t (pre ++ [.chanPollFE false])) ∨
   (w.budget ≠ tMax ∧ ∃ t1, w.budget.toNat ≤ t1 - w.t0 ∧
      s.endedAs t .timeout 0#8 0#4 0#4 (pre ++ [.chanPollFE false, .timeNow t1]) ∧
      s.envKept t (pre ++ [.chanPollFE false, .timeNow t1])) ∨
   (w.budget ≠ tMax ∧ ∃ t1, t1 - w.t0 < w.budget.toNat ∧
      s.waitsAs t w (pre ++ [.chanPollFE false, .timeNow t1]) ∧
      s.envKept t (pre ++ [.chanPollFE false, .timeNow t1])))

/-- The statuses a command can end with: the table of `60_exceptions.md` section 1. -/
def statusesOf : Instr → List Status
  | .cksum _ _ | .genid _ _ | .setid _ _ | .brk _ _ | .wakeup _ _ | .sleep _ _ | .wrreq _ _
  | .rdstrm _ _ => [.ok]
  | .vcksum _ _ => [.ok, .checksum, .short]
  | .valid _ _ => [.ok, .ident]
  | .wbreak _ _ => [.ok, .timeout]
  | .write _ _ | .wrresp _ _ | .wrstrm _ _ => [.ok, .badLen]
  | .read _ _ => [.ok, .ident, .checksum, .short]
  | .reservedF _ _ => [.illegal]

/-- A call on the control line or the delay primitive (`20_memory.md` R54). -/
def Call.isLineCall : Call → Bool
  | .lineSetMode _ | .lineWrite _ | .delayUs _ => true
  | .chanOpen _ | .chanWrite _ | .chanFlush | .chanRead _ _ | .chanPollFE _ | .timeNow _ => false

/-- The calls of a pulse (`41_bus_signaling.md` R121, R127). -/
def pulseCalls (lowered normal : Rate) : List Call :=
  [.chanOpen lowered, .chanWrite 0x00#8, .chanFlush, .chanOpen normal]

/-- The calls of `send_header(id)` at the configured rate `baud` (`43_frame_operations.md` R150). -/
def headerCalls (baud : Rate) (id : Byte) : List Call :=
  pulseCalls (baud / 2#32) baud ++ [.chanWrite 0x55#8, .chanWrite id]

/-- ChanWrite of each byte in ascending order (`20_memory.md` R44). -/
def writeCalls (p : List Byte) : List Call := p.map .chanWrite

/-- The bytes BUF[0 .. LEN-1], where they all hold values (`10_state.md` R23). -/
def payloadOf (len : BitVec 4) (s : State) : List Byte := ((s.buf.readBytes 0 len.toNat).toOption).getD []

/-- The calls, in order, of a command that queues bytes, when no reset comes (`41_bus_signaling.md` R121, R127,
`43_frame_operations.md` R151 to R162). Of a command that queues no byte no call is listed. -/
def queueingCalls : Instr → State → List Call
  | .brk _ _, s => pulseCalls (s.baud / 2#32) s.baud
  | .wakeup _ _, s => pulseCalls s.params.wakeBaud s.baud
  | .write len arg, s =>
    if 8 < len.toNat then []
    else headerCalls s.baud arg ++ writeCalls (payloadOf len s ++ [checksum (payloadOf len s)])
  | .wrreq _ arg, s => headerCalls s.baud arg
  | .wrresp len _, s =>
    if 8 < len.toNat then [] else writeCalls (payloadOf len s ++ [checksum (payloadOf len s)])
  | .wrstrm len _, s =>
    if 8 < len.toNat then [] else headerCalls s.baud s.ident ++ writeCalls (payloadOf len s)
  | .cksum _ _, _ | .vcksum _ _, _ | .genid _ _, _ | .valid _ _, _ | .wbreak _ _, _ | .sleep _ _, _
  | .read _ _, _ | .rdstrm _ _, _ | .setid _ _, _ | .reservedF _ _, _ => []

/-- `t` is `s` after the reset sequence with the straps `st` (`70_reset_and_hazards.md` R212, R213): every register of
the block has its reset value, the trace holds the calls of CFGSLP alone, and with a control line the line is an output
at low. Channel, wire, clock and consumed gaps are not the reset's (R214). -/
abbrev State.resetAs (s t : State) (st : Straps) : Prop :=
  t = { s with
    baud := st.pBaud, ident := st.pIdent, slpctl := if st.pHasSlp then 0b110#3 else 0b000#3,
    timeout := 0#32, status := 0#3, res := 0#8, count := 0#4, vcount := 0#4,
    buf := [], waiting := none,
    trace := if st.pHasSlp then [.lineSetMode .output, .lineWrite .low] else [],
    line := t.line, chan := t.chan, wire := t.wire, now := t.now, during := t.during } ∧
  (st.pHasSlp = true → t.line = { mode := some .output, level := some .low })

/-- A run has ended when its last command has (`70_reset_and_hazards.md` R233). -/
abbrev State.runEnded (s : State) : Prop := s.waiting = none ∧ s.agenda = []

/-- And every byte it queued is on the wire (`70_reset_and_hazards.md` R233). -/
abbrev State.wireSettled (s : State) : Prop := s.chan.txq = []

/-! ### Pulse lengths (`70_reset_and_hazards.md` R230) -/

/-- A zero byte sent at `rate` keeps the bus low for at least BREAK_MIN_BITS bit-times of `baud`:
`zeroByteLowBits / rate >= breakMinBits / baud` (`41_bus_signaling.md` R122; PRESUMED byte format, log 9). -/
abbrev breakLongEnough (rate baud : Rate) : Prop :=
  breakMinBits * rate.toNat ≤ zeroByteLowBits * baud.toNat

/-- A zero byte sent at `rate` keeps the bus low for T_WAKE_MIN to T_WAKE_MAX microseconds:
`zeroByteLowBits / rate` seconds lies in the window (`41_bus_signaling.md` R127; PRESUMED byte format, log 9). -/
abbrev wakePulseInWindow (rate : Rate) : Prop :=
  tWakeMin * rate.toNat ≤ zeroByteLowBits * 1000000 ∧
  zeroByteLowBits * 1000000 ≤ tWakeMax * rate.toNat

end Sys2Proof.Machine
end

