-- ==== Sys2Proof/Certificates/Slice0/Obligations.lean ====
section
/-! DEFINITION. The statements about the block, for the provers. Each docstring names the rules of spec/ it
formalises. Where a statement speaks of a command's end it uses the terms of Safety.lean: `endedAs` (results,
calls appended to the trace, and the frame: everything else of the block as before), `envMoved` and `envKept`
(what the environment did in between), `noReset` (no reset comes inside the command). -/

open Sys2Proof Sys2Proof.Machine Sys2Proof.Config

/-! ### Encoding -/

/-- `30_encoding.md` R80 to R82, R87: no bit of a command is dropped by its word, for every LEN and ARG. -/
def Obligations.DecodeOfEncodeIsIdentity : Prop :=
  ∀ i : Instr, decodeWord (encode i) = i

/-- `30_encoding.md` R80, R87: the decoder is total and loses no bit of any of the 65536 words. -/
def Obligations.EncodeOfDecodeIsIdentity : Prop :=
  ∀ w : CmdWord, encode (decodeWord w) = w

/-- `30_encoding.md` R81, R82: OP = CW[15:12], LEN = CW[11:8], ARG = CW[7:0], as numbers. -/
def Obligations.OpcodeFieldsSelectCommand : Prop :=
  ∀ w : CmdWord,
    (decodeWord w).op.toNat = w.toNat / 4096 ∧
    (decodeWord w).len.toNat = w.toNat / 256 % 16 ∧
    (decodeWord w).arg.toNat = w.toNat % 256

/-- `30_encoding.md` R88 and the words of `95_test_vectors.md`, one of each family. -/
def Obligations.WrittenOutWordsDecode : Prop :=
  decodeWord 0x0300#16 = .cksum 3#4 0x00#8 ∧ decodeWord 0x20FF#16 = .genid 0#4 0xFF#8 ∧
  decodeWord 0x437E#16 = .brk 3#4 0x7E#8 ∧ decodeWord 0x5000#16 = .wbreak 0#4 0x00#8 ∧
  decodeWord 0x7503#16 = .sleep 5#4 0x03#8 ∧ decodeWord 0x83C1#16 = .write 3#4 0xC1#8 ∧
  decodeWord 0xC500#16 = .read 5#4 0x00#8 ∧ decodeWord 0xE042#16 = .setid 0#4 0x42#8 ∧
  decodeWord 0xF123#16 = .reservedF 1#4 0x23#8

/-- `30_encoding.md` R85, with the columns of R82: a field a command does not use has no effect. -/
def Obligations.IgnoredFieldsHaveNoEffect : Prop :=
  ∀ (l l' : BitVec 4) (a a' : Byte) (s : State),
    exec (.cksum l a) s = exec (.cksum l a') s ∧ exec (.vcksum l a) s = exec (.vcksum l a') s ∧
    (a.toNat % 64 = a'.toNat % 64 → exec (.genid l a) s = exec (.genid l' a') s) ∧
    exec (.valid l a) s = exec (.valid l' a) s ∧ exec (.brk l a) s = exec (.brk l' a') s ∧
    exec (.wbreak l a) s = exec (.wbreak l' a') s ∧ exec (.wakeup l a) s = exec (.wakeup l' a') s ∧
    (a.toNat % 2 = a'.toNat % 2 → exec (.sleep l a) s = exec (.sleep l' a') s) ∧
    exec (.wrreq l a) s = exec (.wrreq l' a) s ∧ exec (.wrresp l a) s = exec (.wrresp l a') s ∧
    exec (.wrstrm l a) s = exec (.wrstrm l a') s ∧ exec (.read l a) s = exec (.read l a') s ∧
    exec (.rdstrm l a) s = exec (.rdstrm l a') s ∧ exec (.setid l a) s = exec (.setid l' a) s ∧
    exec (.reservedF l a) s = exec (.reservedF l' a') s

/-! ### Steps -/

/-- `10_state.md` R28, R29: with the ports free, the word the host presents is decoded and its command performed;
the step adds only that the word leaves the agenda. -/
def Obligations.StepRunsDecodedCommand : Prop :=
  ∀ (s : State) (w : CmdWord) (rest : List Action),
    s.waiting = none → s.agenda = .command w :: rest →
    step s = exec (decodeWord w) { s with agenda := rest }

/-- The word that `withFetchWord` places is the one the very next step performs (log 10). -/
def Obligations.FetchWordRunsNext : Prop :=
  ∀ (s : State) (w : CmdWord),
    step (s.withFetchWord 16 w.toNat) = exec (decodeWord w) { s with waiting := none } ∧
    decodeTableWord 16 w.toNat = some (decodeWord w)

/-- `60_exceptions.md` R188 for the block; that the environment stays too is the model's choice: an empty agenda means
that no agent acts (log 2), and a program comes to run by being put on the agenda (log 10). -/
def Obligations.IdleBlockStays : Prop :=
  ∀ s : State, s.waiting = none → s.agenda = [] → step s = .next s

/-- `10_state.md` R29: while a WBREAK is in progress no command is accepted and no register access is served; the
step is one more pass of its loop (one pass a step is the model's choice, log 3), and what the host presents stays
where it is. -/
def Obligations.PortsHeldWhileWaiting : Prop :=
  ∀ (s : State) (w : Wait),
    s.waiting = some w → s.noReset → s.channelOpen →
    (s.agenda = [] ∨ (∃ cw rest, s.agenda = .command cw :: rest) ∨
      (∃ n rest, s.agenda = .regRead n :: rest) ∨ (∃ n v rest, s.agenda = .regWrite n v :: rest)) →
    ∃ t, step s = .next t ∧ t.agenda = s.agenda ∧ s.passOutcome t w []

/-! ### Frame Codec -/

/-- `40_frame_codec.md` R101: the checksum is 255 less the byte sum modulo 256, 0xFF for no bytes. -/
def Obligations.ChecksumIsInvertedSum : Prop :=
  (∀ p : List Byte, (checksum p).toNat = 255 - (p.map BitVec.toNat).sum % 256) ∧ checksum [] = 0xFF#8

/-- `40_frame_codec.md` R105, R106: bits 5:0 are the address, bit 6 is parity0, bit 7 is parity1, and bits 7:6 of
the operand are discarded. -/
def Obligations.GenIdentifierPacksParity : Prop :=
  ∀ v : Byte,
    (∀ j, j < 6 → (genIdentifier v).getLsbD j = v.getLsbD j) ∧
    (genIdentifier v).getLsbD 6 = (v.getLsbD 0 ^^ v.getLsbD 1 ^^ v.getLsbD 2 ^^ v.getLsbD 4) ∧
    (genIdentifier v).getLsbD 7 = !(v.getLsbD 1 ^^ v.getLsbD 3 ^^ v.getLsbD 4 ^^ v.getLsbD 5) ∧
    genIdentifier v = genIdentifier (v &&& 0x3F#8)

/-- `40_frame_codec.md` R108: injective on the addresses, and a byte is a result exactly when it is a fixed
point. -/
def Obligations.WellFormedIdentifiersAreFixedPoints : Prop :=
  (∀ a b : Byte, a.toNat < 64 → b.toNat < 64 → genIdentifier a = genIdentifier b → a = b) ∧
  ∀ b : Byte, (∃ a : Byte, a.toNat < 64 ∧ genIdentifier a = b) ↔ genIdentifier b = b

/-- `40_frame_codec.md` R102: for every LEN, RES is the checksum of BUF[0 .. LEN-1], and nothing but the result
registers changes. -/
def Obligations.CksumCompletes : Prop :=
  ∀ (len : BitVec 4) (arg : Byte) (p : List Byte) (s : State),
    p.length = len.toNat → s.holds p →
    exec (.cksum len arg) s = .next { s with
      status := 0#3, res := BitVec.ofNat 8 (255 - (p.map BitVec.toNat).sum % 256),
      count := 0#4, vcount := 0#4, waiting := none }

/-- `40_frame_codec.md` R103, R104 with the two properties the source states: exactly the checksum of the earlier
bytes is accepted as the last byte, at every length from 1; LEN = 0 is the length error; nothing but the result
registers changes. -/
def Obligations.VcksumAcceptsExactlyTheChecksum : Prop :=
  ∀ (arg : Byte) (s : State),
    exec (.vcksum 0#4 arg) s = .next { s with
      status := 4#3, res := 0#8, count := 0#4, vcount := 0#4, waiting := none } ∧
    ∀ (len : BitVec 4) (p : List Byte) (c : Byte),
      p.length + 1 = len.toNat → s.holds (p ++ [c]) →
      exec (.vcksum len arg) s = .next { s with
        status := if c = checksum p then 0#3 else 2#3,
        res := if c = checksum p then 1#8 else 0#8,
        count := 0#4, vcount := 0#4, waiting := none }

/-- `40_frame_codec.md` R107: RES is the identifier byte of ARG[5:0]; nothing but the result registers changes. -/
def Obligations.GenidCompletes : Prop :=
  ∀ (len : BitVec 4) (arg : Byte) (s : State),
    ∃ r : Byte, exec (.genid len arg) s = .next { s with
        status := 0#3, res := r, count := 0#4, vcount := 0#4, waiting := none } ∧
      r.toNat % 64 = arg.toNat % 64 ∧
      r.getLsbD 6 = (arg.getLsbD 0 ^^ arg.getLsbD 1 ^^ arg.getLsbD 2 ^^ arg.getLsbD 4) ∧
      r.getLsbD 7 = !(arg.getLsbD 1 ^^ arg.getLsbD 3 ^^ arg.getLsbD 4 ^^ arg.getLsbD 5)

/-- `40_frame_codec.md` R109, R110: all 8 bits of ARG are compared with IDENT; nothing but the result registers
changes. -/
def Obligations.ValidCompletes : Prop :=
  ∀ (len : BitVec 4) (arg : Byte) (s : State),
    exec (.valid len arg) s = .next { s with
      status := if arg = s.ident then 0#3 else 1#3,
      res := if arg = s.ident then 1#8 else 0#8,
      count := 0#4, vcount := 0#4, waiting := none }

/-- `40_frame_codec.md` R112, `10_state.md` R14: IDENT takes any byte; otherwise only the result registers
change. -/
def Obligations.SetidCompletes : Prop :=
  ∀ (len : BitVec 4) (arg : Byte) (s : State),
    exec (.setid len arg) s = .next { s with
      ident := arg, status := 0#3, res := 0#8, count := 0#4, vcount := 0#4, waiting := none }

/-- `30_encoding.md` R84: a word with OP = 0xF, whatever its LEN and ARG, makes no call, changes no register other than
the result registers and ends with ST_ILLEGAL and zeros; it decodes to the reserved row of the table. -/
def Obligations.ReservedOpcodeIsIllegal : Prop :=
  (∀ (len : BitVec 4) (arg : Byte) (s : State),
    exec (.reservedF len arg) s = .next { s with
      status := 6#3, res := 0#8, count := 0#4, vcount := 0#4, waiting := none }) ∧
  ∀ (w : CmdWord) (s : State), w.toNat / 4096 = 15 →
    (∃ len arg, decodeWord w = .reservedF len arg) ∧
    exec (decodeWord w) s = .next { s with
      status := 6#3, res := 0#8, count := 0#4, vcount := 0#4, waiting := none }

/-! ### Bus Signaling -/

/-- `41_bus_signaling.md` R121: the four calls of a break in order, no register but the result registers changed,
the channel left at BAUD with an empty queue, the zero byte the last on the wire, at BAUD div 2; the channel need
not have been opened before (R129). With an empty queue at the start it is the only byte the break puts there. -/
def Obligations.BreakCompletes : Prop :=
  ∀ (len : BitVec 4) (arg : Byte) (s : State), s.noReset →
    ∃ t, exec (.brk len arg) s = .next t ∧
      s.endedAs t .ok 0#8 0#4 0#4
        [.chanOpen (s.baud / 2#32), .chanWrite 0x00#8, .chanFlush, .chanOpen s.baud] ∧
      s.envKept t [.chanOpen (s.baud / 2#32), .chanWrite 0x00#8, .chanFlush, .chanOpen s.baud] ∧
      t.chan.rate = some s.baud ∧ t.chan.txq = [] ∧
      (∃ w, s.wire <+: w ∧ t.wire = w ++ [{ byte := 0x00#8, rate := s.baud / 2#32 }]) ∧
      (s.chan.txq = [] → t.wire = s.wire ++ [{ byte := 0x00#8, rate := s.baud / 2#32 }])

/-- `41_bus_signaling.md` R127: as a break, at WAKE_BAUD instead of BAUD div 2; SLPCTL and the line are as
before. -/
def Obligations.WakeupCompletes : Prop :=
  ∀ (len : BitVec 4) (arg : Byte) (s : State), s.noReset →
    ∃ t, exec (.wakeup len arg) s = .next t ∧
      s.endedAs t .ok 0#8 0#4 0#4
        [.chanOpen s.params.wakeBaud, .chanWrite 0x00#8, .chanFlush, .chanOpen s.baud] ∧
      s.envKept t [.chanOpen s.params.wakeBaud, .chanWrite 0x00#8, .chanFlush, .chanOpen s.baud] ∧
      t.chan.rate = some s.baud ∧ t.chan.txq = [] ∧
      (∃ w, s.wire <+: w ∧ t.wire = w ++ [{ byte := 0x00#8, rate := s.params.wakeBaud }]) ∧
      (s.chan.txq = [] → t.wire = s.wire ++ [{ byte := 0x00#8, rate := s.params.wakeBaud }])

/-- `30_encoding.md` R71, `41_bus_signaling.md` R122, R127, under the byte format the spec takes from general
knowledge (G2; PRESUMED, log 9): the zero byte of a break is low for at least 13 bit-times of BAUD, that of a
wake-up pulse for 250 to 500 microseconds, whatever the environment does. -/
def Obligations.PulsesHaveTheirLength : Prop :=
  ∀ (len : BitVec 4) (arg : Byte) (s : State), s.noReset → s.baudValid → s.params.valid →
    (∃ t w r, exec (.brk len arg) s = .next t ∧ t.wire = w ++ [{ byte := 0x00#8, rate := r }] ∧
      0 < r.toNat ∧ breakLongEnough r s.baud) ∧
    (∃ t w r, exec (.wakeup len arg) s = .next t ∧ t.wire = w ++ [{ byte := 0x00#8, rate := r }] ∧
      wakePulseInWindow r)

/-- `41_bus_signaling.md` R124, R125: WBREAK reads the clock, then makes the first pass of its loop, on an open
channel, whatever the environment answers. It ends, or stays in progress with T = TIMEOUT and t0; it changes no
register but, at its end, the result registers, and makes no calls but ChanPollFE and Now. One pass a step is the
model's choice (log 3). -/
def Obligations.WbreakMakesItsFirstPass : Prop :=
  ∀ (len : BitVec 4) (arg : Byte) (s : State), s.noReset → s.channelOpen →
    ∃ t t0, exec (.wbreak len arg) s = .next t ∧ s.now ≤ t0 ∧
      s.passOutcome t { budget := s.timeout, t0 := t0 } [.timeNow t0]

/-- `41_bus_signaling.md` R124, `20_memory.md` R47, R53: when no agent moves inside the command, the sample is the
framing-error signal and both clock readings are the clock, so the outcome is determined (one pass a step: the model's
choice, log 3). -/
def Obligations.WbreakInQuietEnvironment : Prop :=
  ∀ (len : BitVec 4) (arg : Byte) (s : State), s.during = [] → s.channelOpen →
    (s.chan.fe = true → exec (.wbreak len arg) s = .next { s with
      status := 0#3, res := 1#8, count := 0#4, vcount := 0#4, waiting := none,
      trace := s.trace ++ [.timeNow s.now, .chanPollFE true] }) ∧
    (s.chan.fe = false → s.timeout = 0#32 → exec (.wbreak len arg) s = .next { s with
      status := 3#3, res := 0#8, count := 0#4, vcount := 0#4, waiting := none,
      trace := s.trace ++ [.timeNow s.now, .chanPollFE false, .timeNow s.now] }) ∧
    (s.chan.fe = false → s.timeout = 0xFFFFFFFF#32 → exec (.wbreak len arg) s = .next { s with
      waiting := some { budget := 0xFFFFFFFF#32, t0 := s.now },
      trace := s.trace ++ [.timeNow s.now, .chanPollFE false] }) ∧
    (s.chan.fe = false → s.timeout ≠ 0#32 → s.timeout ≠ 0xFFFFFFFF#32 →
      exec (.wbreak len arg) s = .next { s with
        waiting := some { budget := s.timeout, t0 := s.now },
        trace := s.trace ++ [.timeNow s.now, .chanPollFE false, .timeNow s.now] })

/-- `41_bus_signaling.md` R124 ("when TIMEOUT = 0 it ends after exactly one sample"): whatever the environment does,
a WBREAK with TIMEOUT = 0 ends at once, and with ST_TIMEOUT exactly when its one sample was 0. -/
def Obligations.WbreakWithZeroTimeoutEnds : Prop :=
  ∀ (len : BitVec 4) (arg : Byte) (s : State), s.noReset → s.channelOpen → s.timeout = 0#32 →
    ∃ t t0, exec (.wbreak len arg) s = .next t ∧ t.waiting = none ∧
      ((t.trace = s.trace ++ [.timeNow t0, .chanPollFE true] ∧ t.status = 0#3 ∧ t.res = 1#8) ∨
       ∃ t1, t.trace = s.trace ++ [.timeNow t0, .chanPollFE false, .timeNow t1] ∧
         t.status = 3#3 ∧ t.res = 0#8)

/-- `41_bus_signaling.md` R124, `10_state.md` R22, R29, U11: with TIMEOUT = T_MAX and a signal that is never
asserted, a WBREAK in progress never ends, whatever else happens: the clock advances, bytes leave or arrive, the signal
is set to 0 again, the host presents commands and register accesses. Every step that no move of the environment takes is
one more sample of 0 (one poll a step: the model's choice, log 3), no register is written and the ports stay held. Where
no agent acts (log 2) the next states are given whole. -/
def Obligations.UnlimitedWaitHangs : Prop :=
  ∀ (s : State) (t0 : Nat) (k : Nat),
    s.waiting = some { budget := 0xFFFFFFFF#32, t0 := t0 } → s.chan.fe = false → s.channelOpen → s.noReset →
    (∀ g ∈ s.during, Move.signal true ∉ g.moves) →
    (∀ a ∈ s.agenda, a ≠ .move (.signal true) ∧ (∀ st, a ≠ .reset st) ∧ ∀ r, a ≠ .openChannel r) →
    ∃ t polls, Sys2Proof.core.run k s = .next t ∧ polls ≤ k ∧ k ≤ polls + s.agenda.length ∧
      t = { s with
        trace := s.trace ++ List.replicate polls (.chanPollFE false), agenda := t.agenda,
        chan := t.chan, wire := t.wire, now := t.now, during := t.during } ∧
      t.agenda <:+ s.agenda ∧
      (s.agenda = [] → s.during = [] →
        t = { s with trace := s.trace ++ List.replicate k (.chanPollFE false) })

/-! ### Transceiver Control -/

/-- `42_transceiver_control.md` R143: with a control line SLEEP drives it to ARG[0], records the settling delay, and
sets SLP_LEVEL; the other bits of SLPCTL, the channel's rate and every other register are as before. -/
def Obligations.SleepDrivesLine : Prop :=
  ∀ (len : BitVec 4) (arg : Byte) (s : State), s.noReset → hasSlp s.slpctl = true →
    ∃ t lvl, exec (.sleep len arg) s = .next t ∧
      lvl = (if arg.toNat % 2 = 1 then Level.high else Level.low) ∧
      t = { s with
        status := 0#3, res := 0#8, count := 0#4, vcount := 0#4, waiting := none,
        slpctl := t.slpctl, line := { s.line with level := some lvl },
        trace := s.trace ++ [.lineWrite lvl, .delayUs 20],
        chan := t.chan, wire := t.wire, now := t.now, during := t.during } ∧
      slpLevel t.slpctl = decide (arg.toNat % 2 = 1) ∧
      slpOe t.slpctl = slpOe s.slpctl ∧ hasSlp t.slpctl = true ∧
      (slpOe s.slpctl = true →
        t.transceiver = some (if arg.toNat % 2 = 1 then .sleep else .normal)) ∧
      t.chan.rate = s.chan.rate ∧ s.envKept t [.lineWrite lvl, .delayUs 20]

/-- `42_transceiver_control.md` R143 (HAS_SLP = 0): no call, no register but the result registers. -/
def Obligations.SleepWithoutLineMakesNoCall : Prop :=
  ∀ (len : BitVec 4) (arg : Byte) (s : State), hasSlp s.slpctl = false →
    exec (.sleep len arg) s = .next { s with
      status := 0#3, res := 0#8, count := 0#4, vcount := 0#4, waiting := none }

/-- `42_transceiver_control.md` R143, idempotence: SLEEP twice with the same argument leaves SLPCTL, the line and the
four results as once, and makes its calls again. -/
def Obligations.SleepIsIdempotent : Prop :=
  ∀ (len : BitVec 4) (arg : Byte) (s t : State), s.noReset → exec (.sleep len arg) s = .next t →
    ∃ u cs, exec (.sleep len arg) t = .next u ∧
      u.slpctl = t.slpctl ∧ u.line = t.line ∧
      u.status = t.status ∧ u.res = t.res ∧ u.count = t.count ∧ u.vcount = t.vcount ∧
      t.trace = s.trace ++ cs ∧ u.trace = t.trace ++ cs

/-- `20_memory.md` R54: without a control line no command makes a line or delay call, nor does any step while a WBREAK
is in progress, whatever stands on the agenda but a reset, and neither does reset. -/
def Obligations.NoLineCallWithoutLine : Prop :=
  (∀ (i : Instr) (s t : State), hasSlp s.slpctl = false → s.noReset → exec i s = .next t →
    ∃ cs, t.trace = s.trace ++ cs ∧ ∀ c ∈ cs, c.isLineCall = false) ∧
  (∀ (s t : State) (w : Wait), hasSlp s.slpctl = false → s.noReset → s.waiting = some w →
    (∀ st rest, s.agenda ≠ .reset st :: rest) → step s = .next t →
    ∃ cs, t.trace = s.trace ++ cs ∧ ∀ c ∈ cs, c.isLineCall = false) ∧
  ∀ (s t : State) (st : Straps) (rest : List Action), s.agenda = .reset st :: rest →
    st.pHasSlp = false → step s = .next t → ∀ c ∈ t.trace, c.isLineCall = false

/-! ### Frame commands -/

/-- `43_frame_operations.md` R150, R152: WRITE makes the calls of the header with ARG unchanged, then the payload
bytes in ascending order, then the checksum over the payload alone; no register but the result registers changes, the
channel is left at BAUD. -/
def Obligations.WriteCompletes : Prop :=
  ∀ (len : BitVec 4) (arg : Byte) (p : List Byte) (s : State),
    s.noReset → len.toNat ≤ 8 → p.length = len.toNat → s.holds p →
    ∃ t, exec (.write len arg) s = .next t ∧
      s.endedAs t .ok 0#8 0#4 0#4 (headerCalls s.baud arg ++ writeCalls (p ++ [checksum p])) ∧
      s.envKept t (headerCalls s.baud arg ++ writeCalls (p ++ [checksum p])) ∧
      t.chan.rate = some s.baud

/-- `43_frame_operations.md` R150, R156: WRREQ makes the calls of the header with ARG unchanged, for every LEN. -/
def Obligations.WrreqCompletes : Prop :=
  ∀ (len : BitVec 4) (arg : Byte) (s : State), s.noReset →
    ∃ t, exec (.wrreq len arg) s = .next t ∧
      s.endedAs t .ok 0#8 0#4 0#4 (headerCalls s.baud arg) ∧
      s.envKept t (headerCalls s.baud arg) ∧ t.chan.rate = some s.baud

/-- `43_frame_operations.md` R159: WRRESP queues the payload and its checksum on an open channel; it opens nothing
and flushes nothing. -/
def Obligations.WrrespCompletes : Prop :=
  ∀ (len : BitVec 4) (arg : Byte) (p : List Byte) (s : State),
    s.noReset → s.channelOpen → len.toNat ≤ 8 → p.length = len.toNat → s.holds p →
    ∃ t, exec (.wrresp len arg) s = .next t ∧
      s.endedAs t .ok 0#8 0#4 0#4 (writeCalls (p ++ [checksum p])) ∧
      s.envKept t (writeCalls (p ++ [checksum p])) ∧ t.chan.rate = s.chan.rate

/-- `43_frame_operations.md` R162: WRSTRM makes the calls of the header with IDENT, then the payload bytes, and no
checksum. -/
def Obligations.WrstrmCompletes : Prop :=
  ∀ (len : BitVec 4) (arg : Byte) (p : List Byte) (s : State),
    s.noReset → len.toNat ≤ 8 → p.length = len.toNat → s.holds p →
    ∃ t, exec (.wrstrm len arg) s = .next t ∧
      s.endedAs t .ok 0#8 0#4 0#4 (headerCalls s.baud s.ident ++ writeCalls p) ∧
      s.envKept t (headerCalls s.baud s.ident ++ writeCalls p) ∧ t.chan.rate = some s.baud

/-- `30_encoding.md` R70, R77, `43_frame_operations.md` R153, `70_reset_and_hazards.md` R221: with an empty queue at the
start (the host's duty of R221), what WRITE, WRREQ (at every LEN) and WRSTRM put on the wire is the break at BAUD div 2
and then, at BAUD, the first bytes of sync, identifier, payload and (WRITE) checksum, in this order; the others are still
queued, in this order. No byte is lost, doubled or sent at a wrong rate, whatever the adapter does. -/
def Obligations.FramesOnTheWire : Prop :=
  (∀ (len : BitVec 4) (arg : Byte) (s : State), s.noReset → s.chan.txq = [] →
    ∃ t sent, exec (.wrreq len arg) s = .next t ∧
      [0x55#8, arg] = sent ++ t.chan.txq ∧
      t.wire = s.wire ++ [{ byte := 0x00#8, rate := s.baud / 2#32 }] ++
        sent.map fun b => { byte := b, rate := s.baud }) ∧
  ∀ (len : BitVec 4) (arg : Byte) (p : List Byte) (s : State),
    s.noReset → s.chan.txq = [] → len.toNat ≤ 8 → p.length = len.toNat → s.holds p →
    (∃ t sent, exec (.write len arg) s = .next t ∧
      [0x55#8, arg] ++ p ++ [checksum p] = sent ++ t.chan.txq ∧
      t.wire = s.wire ++ [{ byte := 0x00#8, rate := s.baud / 2#32 }] ++
        sent.map fun b => { byte := b, rate := s.baud }) ∧
    (∃ t sent, exec (.wrstrm len arg) s = .next t ∧
      [0x55#8, s.ident] ++ p = sent ++ t.chan.txq ∧
      t.wire = s.wire ++ [{ byte := 0x00#8, rate := s.baud / 2#32 }] ++
        sent.map fun b => { byte := b, rate := s.baud })

/-- `43_frame_operations.md` R151: LEN above 8 ends WRITE, WRRESP and WRSTRM with ST_BADLEN before any call and before
BUF is read; nothing but the result registers changes. -/
def Obligations.TooLongPayloadIsRefused : Prop :=
  ∀ (len : BitVec 4) (arg : Byte) (s : State), 8 < len.toNat →
    exec (.write len arg) s = .next { s with
      status := 5#3, res := 0#8, count := 0#4, vcount := 0#4, waiting := none } ∧
    exec (.wrresp len arg) s = .next { s with
      status := 5#3, res := 0#8, count := 0#4, vcount := 0#4, waiting := none } ∧
    exec (.wrstrm len arg) s = .next { s with
      status := 5#3, res := 0#8, count := 0#4, vcount := 0#4, waiting := none }

/-- `43_frame_operations.md` R166, `60_exceptions.md` R189, `20_memory.md` R46: READ makes one ChanRead(LEN) and takes the
bytes answered, at most LEN of them. They are consumed from those waiting or arriving, BUF[0 .. n-1] holds them and every
other byte of BUF is as before, COUNT = n. The tests come in the order nothing read, identifier, one byte, checksum, and
VCOUNT is n after ST_OK and 0 after an error. When no agent moves inside the command the bytes are those of the first
waiting portion (portions are the model's way to hold the environment's answers, log 11). -/
def Obligations.ReadCompletes : Prop :=
  ∀ (len : BitVec 4) (arg : Byte) (s : State), s.noReset → s.channelOpen →
    ∃ t bytes st v, exec (.read len arg) s = .next t ∧
      t = { s with
        status := Status.code st, res := 0#8, count := BitVec.ofNat 4 bytes.length, vcount := v,
        waiting := none, buf := t.buf, trace := s.trace ++ [.chanRead len.toNat bytes],
        chan := t.chan, wire := t.wire, now := t.now, during := t.during } ∧
      s.envMoved t [.chanRead len.toNat bytes] ∧ t.chan.rate = s.chan.rate ∧
      bytes.length ≤ len.toNat ∧
      (∃ arrived, (s.chan.rx ++ arrived).flatten = bytes ++ t.chan.rx.flatten) ∧
      (s.during = [] → bytes = (s.chan.rx.headD []).take len.toNat) ∧
      (∀ k, t.buf.readByte k = if h : k < bytes.length then some bytes[k] else s.buf.readByte k) ∧
      (bytes = [] → st = .short ∧ v = 0#4) ∧
      (∀ b bs, bytes = b :: bs → b ≠ s.ident → st = .ident ∧ v = 0#4) ∧
      (bytes = [s.ident] → st = .short ∧ v = 0#4) ∧
      (∀ mid last, bytes = s.ident :: (mid ++ [last]) →
        (checksum (if s.params.readCksumIncludesId then s.ident :: mid else mid) = last →
          st = .ok ∧ v = BitVec.ofNat 4 bytes.length) ∧
        (checksum (if s.params.readCksumIncludesId then s.ident :: mid else mid) ≠ last →
          st = .checksum ∧ v = 0#4))

/-- `43_frame_operations.md` R172, `20_memory.md` R46: RDSTRM takes the bytes of one ChanRead(LEN) into BUF and always ends
with ST_OK (the waiting portions: log 11). -/
def Obligations.RdstrmCompletes : Prop :=
  ∀ (len : BitVec 4) (arg : Byte) (s : State), s.noReset → s.channelOpen →
    ∃ t bytes, exec (.rdstrm len arg) s = .next t ∧
      t = { s with
        status := 0#3, res := 0#8, count := BitVec.ofNat 4 bytes.length, vcount := 0#4,
        waiting := none, buf := t.buf, trace := s.trace ++ [.chanRead len.toNat bytes],
        chan := t.chan, wire := t.wire, now := t.now, during := t.during } ∧
      s.envMoved t [.chanRead len.toNat bytes] ∧ t.chan.rate = s.chan.rate ∧
      bytes.length ≤ len.toNat ∧
      (∃ arrived, (s.chan.rx ++ arrived).flatten = bytes ++ t.chan.rx.flatten) ∧
      (s.during = [] → bytes = (s.chan.rx.headD []).take len.toNat) ∧
      (∀ k, t.buf.readByte k = if h : k < bytes.length then some bytes[k] else s.buf.readByte k)

/-- `43_frame_operations.md` R166 (checksum coverage), `70_reset_and_hazards.md` R227: the bytes that WRITE queues after the
sync byte, delivered to READ on a block whose IDENT is that identifier, pass when READ_CKSUM_INCLUDES_ID is false, and with
the default only for the identifier byte 0x00, which is no well-formed one (the waiting portions: log 11). -/
def Obligations.ReadOfWrittenFrame : Prop :=
  ∀ (len : BitVec 4) (arg : Byte) (p : List Byte) (rest : List (List Byte)) (s : State),
    s.during = [] → s.channelOpen → p.length + 2 ≤ len.toNat →
    s.chan.rx = (s.ident :: (p ++ [checksum p])) :: rest →
    ∃ t, exec (.read len arg) s = .next t ∧
      t.status = (if s.params.readCksumIncludesId = true ∧ s.ident ≠ 0x00#8 then 2#3 else 0#3) ∧
      t.count = BitVec.ofNat 4 (p.length + 2) ∧ t.chan.rx = rest

/-! ### BUF and the channel's preconditions -/

/-- `10_state.md` R23: a byte written is the byte read, and no other byte changes. -/
def Obligations.WrittenByteIsReadBack : Prop :=
  ∀ (m : Memory) (i j : Nat) (v : Byte),
    (m.writeByte i v).readByte j = if j = i then some v else m.readByte j

/-- `10_state.md` R24: reset leaves no byte of BUF with a value, and a command that reads a byte without one faults, at the
first such byte, before it makes any call. -/
def Obligations.UnwrittenByteFaults : Prop :=
  (∀ (s t : State) (st : Straps) (rest : List Action) (k : Nat),
    s.agenda = .reset st :: rest → step s = .next t → t.buf.readByte k = none) ∧
  ∀ (len : BitVec 4) (arg : Byte) (k : Nat) (s : State),
    k < len.toNat → s.buf.readByte k = none → (∀ j, j < k → (s.buf.readByte j).isSome = true) →
    exec (.cksum len arg) s = .fault (.bufUnwritten k) ∧
    exec (.vcksum len arg) s = .fault (.bufUnwritten k) ∧
    (len.toNat ≤ 8 →
      exec (.write len arg) s = .fault (.bufUnwritten k) ∧
      exec (.wrresp len arg) s = .fault (.bufUnwritten k) ∧
      exec (.wrstrm len arg) s = .fault (.bufUnwritten k))

/-- `20_memory.md` R49, U2: WBREAK, WRRESP, READ and RDSTRM are refused on a channel never opened. -/
def Obligations.ClosedChannelIsRefused : Prop :=
  ∀ (len : BitVec 4) (arg : Byte) (p : List Byte) (s : State),
    s.noReset → s.chan.rate = none →
    exec (.wbreak len arg) s = .refused .channelNotOpen ∧
    exec (.read len arg) s = .refused .channelNotOpen ∧
    exec (.rdstrm len arg) s = .refused .channelNotOpen ∧
    (len.toNat ≤ 8 → p.length = len.toNat → s.holds p →
      exec (.wrresp len arg) s = .refused .channelNotOpen)

/-! ### Reset -/

/-- `70_reset_and_hazards.md` R212: what the reset sequence writes, in whatever state it comes, also with a WBREAK in
progress; the channel, the wire and the clock are not touched (R214). -/
def Obligations.ResetSequenceValues : Prop :=
  ∀ (s : State) (st : Straps) (rest : List Action),
    s.agenda = .reset st :: rest → st.valid →
    ∃ ln, step s = .next { s with
        baud := st.pBaud, ident := st.pIdent, slpctl := if st.pHasSlp then 0b110#3 else 0b000#3,
        timeout := 0#32, status := 0#3, res := 0#8, count := 0#4, vcount := 0#4,
        buf := [], waiting := none,
        trace := if st.pHasSlp then [.lineSetMode .output, .lineWrite .low] else [],
        line := ln, agenda := rest } ∧
      (st.pHasSlp = true → ln = { mode := some .output, level := some .low })

/-- `70_reset_and_hazards.md` R210, R212: the state after reset is the outcome of a reset with the straps of
`Config.defaultStraps` (the model's choice, log 4), from the environment of log 6. -/
def Obligations.ResetStateIsAfterReset : Prop :=
  ∀ s : State,
    s.agenda = [.reset defaultStraps] → s.wire = [] → s.now = 0 → s.during = [] → s.portOut = [] →
    s.params = defaultParams →
    s.chan = { rate := some 19200#32, txq := [], rx := [], fe := false } →
    step s = .next State.reset

/-- U9 (`93_implementation_defined.md`): straps below the constraint of R211 have no meaning. -/
def Obligations.BadStrapsAreRefused : Prop :=
  ∀ (s : State) (st : Straps) (rest : List Action),
    s.agenda = .reset st :: rest → st.pBaud.toNat < 2 → step s = .refused .badStraps

/-- `70_reset_and_hazards.md` R210, R212, U18: a reset that comes before the third call of a BREAK abandons it. The calls
already made stay made: the channel is left at BAUD div 2 and the zero byte queued or sent. Every register, SLPCTL
included, the trace and the line are as the reset sequence leaves them, so no result of the command is left. Resets come
before calls (log 13). -/
def Obligations.ResetAbandonsBreak : Prop :=
  ∀ (len : BitVec 4) (arg : Byte) (s : State) (g1 g2 g3 : Gap) (rest : List Gap) (st : Straps),
    s.during = g1 :: g2 :: g3 :: rest → g1.reset = none → g2.reset = none → g3.reset = some st →
    st.valid →
    ∃ t, exec (.brk len arg) s = .next t ∧ s.resetAs t st ∧
      t.slpctl = (if st.pHasSlp then 0b110#3 else 0b000#3) ∧
      t.chan.rate = some (s.baud / 2#32) ∧
      wireBytes t.wire ++ t.chan.txq = wireBytes s.wire ++ s.chan.txq ++ [0x00#8] ∧
      t.during = rest

/-- `70_reset_and_hazards.md` R210: a command either met no reset before any of its calls, or was abandoned by the first
reset that came, before its call number k counted from 0. Then the registers, the trace and the line are as the reset
sequence leaves them, so no result of the command is left and the ports are free; the bytes queued before the command and
those of its first k calls (`queueingCalls`) are still queued or sent, in order, and no other byte is. Resets come before
calls (log 13). -/
def Obligations.CommandRunsOrIsAbandoned : Prop :=
  ∀ (i : Instr) (s t : State), exec i s = .next t →
    (∃ cs, t.trace = s.trace ++ cs ∧ s.envMoved t cs ∧ t.baud = s.baud ∧ t.timeout = s.timeout ∧
      ∀ g ∈ s.during.take cs.length, g.reset = none) ∨
    (∃ k g st, s.during[k]? = some g ∧ g.reset = some st ∧ st.valid ∧
      (∀ g' ∈ s.during.take k, g'.reset = none) ∧ s.resetAs t st ∧
      s.wire <+: t.wire ∧
      wireBytes t.wire ++ t.chan.txq =
        wireBytes s.wire ++ s.chan.txq ++ bytesWritten ((queueingCalls i s).take k) ∧
      s.now ≤ t.now ∧ t.during = s.during.drop (k + 1))

/-! ### Rules about the whole machine -/

/-- The table of `60_exceptions.md` section 1, with `10_state.md` R22 and `60_exceptions.md` R190: a command that ends has one
of its statuses, and after an error RES and VCOUNT are 0; a command that does not end is a WBREAK and has written no result
register. -/
def Obligations.CommandsEndWithTheirStatuses : Prop :=
  ∀ (i : Instr) (s t : State), s.noReset → exec i s = .next t →
    (t.waiting = none ∧ ∃ st ∈ statusesOf i, t.status = Status.code st ∧
      (st ≠ .ok → t.res = 0#8 ∧ t.vcount = 0#4)) ∨
    (t.waiting ≠ none ∧ (∃ len arg, i = .wbreak len arg) ∧
      t.status = s.status ∧ t.res = s.res ∧ t.count = s.count ∧ t.vcount = s.vcount)

/-- `10_state.md` R13, R14, R16, R18, R23: no command writes BAUD or TIMEOUT; IDENT is written only by SETID, SLPCTL and the
control line only by SLEEP, BUF only by READ and RDSTRM; the host's agenda and the port's answers are no command's. -/
def Obligations.OnlyTheNamedCommandsWrite : Prop :=
  ∀ (i : Instr) (s t : State), s.noReset → exec i s = .next t →
    t.baud = s.baud ∧ t.timeout = s.timeout ∧ t.params = s.params ∧ t.agenda = s.agenda ∧
    t.portOut = s.portOut ∧
    ((∀ len arg, i ≠ .setid len arg) → t.ident = s.ident) ∧
    ((∀ len arg, i ≠ .sleep len arg) → t.slpctl = s.slpctl ∧ t.line = s.line) ∧
    ((∀ len arg, i ≠ .read len arg ∧ i ≠ .rdstrm len arg) →
      ∀ k, t.buf.readByte k = s.buf.readByte k)

/-- `42_transceiver_control.md` R145, `10_state.md` R16: a step in which TransceiverState changes performs a SLEEP, with
the ports free, or a reset, on the agenda or before one of the calls the step makes; no timer, no bus activity, no error
and no register access moves it. -/
def Obligations.OnlySleepAndResetMoveTransceiver : Prop :=
  ∀ s t : State, step s = .next t → t.transceiver ≠ s.transceiver →
    (s.waiting = none ∧
      ∃ w rest len arg, s.agenda = .command w :: rest ∧ decodeWord w = .sleep len arg) ∨
    (∃ st rest, s.agenda = .reset st :: rest) ∨
    (∃ k g st, s.during[k]? = some g ∧ g.reset = some st ∧
      (∀ g' ∈ s.during.take k, g'.reset = none) ∧ t.during = s.during.drop (k + 1))

/-- `10_state.md` R25, `60_exceptions.md` R191: no command reads the result registers. Two runs of a command that differ only
there end in the same state; a WBREAK that goes on waiting leaves them as they were; a command that stops, stops the same
way. -/
def Obligations.ResultRegistersAreNotRead : Prop :=
  ∀ (i : Instr) (s : State) (st : BitVec 3) (r : Byte) (c v : BitVec 4),
    (∀ t, exec i s = .next t →
      exec i { s with status := st, res := r, count := c, vcount := v } = .next t ∨
      (t.waiting ≠ none ∧ exec i { s with status := st, res := r, count := c, vcount := v } =
        .next { t with status := st, res := r, count := c, vcount := v })) ∧
    (∀ f, exec i s = .fault f →
      exec i { s with status := st, res := r, count := c, vcount := v } = .fault f) ∧
    (∀ f, exec i s = .refused f →
      exec i { s with status := st, res := r, count := c, vcount := v } = .refused f)

/-- `20_memory.md` R48, R60: for every command and whatever the adapter does, the wire only grows, and the bytes of wire and
then queue grow by exactly the bytes of the command's ChanWrite calls in call order: no byte overtakes another, none is lost
and none is invented. -/
def Obligations.BytesLeaveInQueueOrder : Prop :=
  ∀ (i : Instr) (s t : State), s.noReset → exec i s = .next t →
    ∃ cs, t.trace = s.trace ++ cs ∧ s.wire <+: t.wire ∧
      wireBytes t.wire ++ t.chan.txq = wireBytes s.wire ++ s.chan.txq ++ bytesWritten cs

/-- Every step keeps the invariant `State.Inv` of Safety.lean: BUF canonical, BAUD at least 2, SLPCTL legal and the line at its
level, STATUS a legal code with VCOUNT as R21 says, a WBREAK in progress with the T and t0 it began with, bytes queued only at a
defined rate. -/
def Obligations.EveryStepKeepsInvariant : Prop :=
  ∀ s t : State, s.Inv → step s = .next t → t.Inv

/-- `State.reset`, the model's state after reset, satisfies `State.Inv`. Its straps (log 4), its open, empty channel
(log 6), its parameters (log 8) and its empty agenda (log 2) are the model's choices; R213 gives none of them. -/
def Obligations.ResetStateSatisfiesInvariant : Prop := State.reset.Inv

/-! ### Ports and agents -/

/-- `10_state.md` R30 and the table of its section 3: between commands RegRead(n) returns register n, 0 for the hole, a BUF byte
for 16 to 31, and a fault for a BUF byte without value (R24; on the register port it is the model's reading, log 5); it
changes nothing. -/
def Obligations.RegReadReturnsRegister : Prop :=
  ∀ (s : State) (n : BitVec 5) (rest : List Action),
    s.waiting = none → s.agenda = .regRead n :: rest →
    (∀ v : BitVec 32,
      ((n = 0#5 ∧ v = s.baud) ∨ (n = 1#5 ∧ v.toNat = s.ident.toNat) ∨
       (n = 2#5 ∧ v.toNat = s.slpctl.toNat) ∨ (n = 3#5 ∧ v = s.timeout) ∨
       (n = 4#5 ∧ v.toNat = s.status.toNat) ∨ (n = 5#5 ∧ v.toNat = s.res.toNat) ∨
       (n = 6#5 ∧ v.toNat = s.count.toNat) ∨ (n = 7#5 ∧ v.toNat = s.vcount.toNat) ∨
       (8 ≤ n.toNat ∧ n.toNat < 16 ∧ v = 0#32) ∨
       (16 ≤ n.toNat ∧ ∃ b, s.buf.readByte (n.toNat - 16) = some b ∧ v.toNat = b.toNat)) →
      step s = .next { s with agenda := rest, portOut := s.portOut ++ [{ number := n, value := v }] }) ∧
    (16 ≤ n.toNat → s.buf.readByte (n.toNat - 16) = none →
      step s = .fault (.bufUnwritten (n.toNat - 16)))

/-- `10_state.md` R30: between commands RegWrite(n, v) writes TIMEOUT or a BUF byte, the value truncated to its width, and does
nothing for any other register. -/
def Obligations.RegWriteWritesTimeoutAndBuf : Prop :=
  ∀ (s : State) (n : BitVec 5) (v : Nat) (rest : List Action),
    s.waiting = none → s.agenda = .regWrite n v :: rest →
    (n = 3#5 → step s = .next { s with agenda := rest, timeout := BitVec.ofNat 32 v }) ∧
    (16 ≤ n.toNat → ∃ m, step s = .next { s with agenda := rest, buf := m } ∧
      ∀ k, m.readByte k = if k = n.toNat - 16 then some (BitVec.ofNat 8 v) else s.buf.readByte k) ∧
    (n ≠ 3#5 → n.toNat < 16 → step s = .next { s with agenda := rest })

/-- `20_memory.md` R48: the adapter puts the head of its queue on the wire at the rate current at that moment, at any time, also
during a WBREAK. -/
def Obligations.AdapterSendsHeadAtCurrentRate : Prop :=
  ∀ (s : State) (r : Rate) (b : Byte) (q : List Byte) (rest : List Action),
    s.agenda = .move .send :: rest → s.chan.rate = some r → s.chan.txq = b :: q →
    step s = .next { s with
      agenda := rest, chan := { s.chan with txq := q }, wire := s.wire ++ [{ byte := b, rate := r }] }

/-- `20_memory.md` R43, `70_reset_and_hazards.md` R232 ("opening the channel"), U10: the owner's open changes the rate and
nothing else, queued and received bytes stay; during a command it is refused (log 14). -/
def Obligations.OwnerOpensChannelBetweenCommands : Prop :=
  ∀ (s : State) (r : Rate) (rest : List Action), s.agenda = .openChannel r :: rest →
    (s.waiting = none →
      step s = .next { s with agenda := rest, chan := { s.chan with rate := some r } }) ∧
    (s.waiting ≠ none → step s = .refused .channelShared)
end

