-- ==== Sys2Proof/Laws/State.lean ====
section
/-! SUPPORT. One lemma per field per update of State, each true by rfl, so that no later proof unfolds a
record update. -/

namespace Sys2Proof.Machine

/-! ### `State.endCommand` -/

@[simp] theorem State.endCommand_baud (s : State) (st : Status) (r : Byte) (c v : BitVec 4) :
    (s.endCommand st r c v).baud = s.baud := rfl
@[simp] theorem State.endCommand_ident (s : State) (st : Status) (r : Byte) (c v : BitVec 4) :
    (s.endCommand st r c v).ident = s.ident := rfl
@[simp] theorem State.endCommand_slpctl (s : State) (st : Status) (r : Byte) (c v : BitVec 4) :
    (s.endCommand st r c v).slpctl = s.slpctl := rfl
@[simp] theorem State.endCommand_timeout (s : State) (st : Status) (r : Byte) (c v : BitVec 4) :
    (s.endCommand st r c v).timeout = s.timeout := rfl
@[simp] theorem State.endCommand_status (s : State) (st : Status) (r : Byte) (c v : BitVec 4) :
    (s.endCommand st r c v).status = st.code := rfl
@[simp] theorem State.endCommand_res (s : State) (st : Status) (r : Byte) (c v : BitVec 4) :
    (s.endCommand st r c v).res = r := rfl
@[simp] theorem State.endCommand_count (s : State) (st : Status) (r : Byte) (c v : BitVec 4) :
    (s.endCommand st r c v).count = c := rfl
@[simp] theorem State.endCommand_vcount (s : State) (st : Status) (r : Byte) (c v : BitVec 4) :
    (s.endCommand st r c v).vcount = v := rfl
@[simp] theorem State.endCommand_buf (s : State) (st : Status) (r : Byte) (c v : BitVec 4) :
    (s.endCommand st r c v).buf = s.buf := rfl
@[simp] theorem State.endCommand_waiting (s : State) (st : Status) (r : Byte) (c v : BitVec 4) :
    (s.endCommand st r c v).waiting = none := rfl
@[simp] theorem State.endCommand_trace (s : State) (st : Status) (r : Byte) (c v : BitVec 4) :
    (s.endCommand st r c v).trace = s.trace := rfl
@[simp] theorem State.endCommand_wire (s : State) (st : Status) (r : Byte) (c v : BitVec 4) :
    (s.endCommand st r c v).wire = s.wire := rfl
@[simp] theorem State.endCommand_chan (s : State) (st : Status) (r : Byte) (c v : BitVec 4) :
    (s.endCommand st r c v).chan = s.chan := rfl
@[simp] theorem State.endCommand_line (s : State) (st : Status) (r : Byte) (c v : BitVec 4) :
    (s.endCommand st r c v).line = s.line := rfl
@[simp] theorem State.endCommand_now (s : State) (st : Status) (r : Byte) (c v : BitVec 4) :
    (s.endCommand st r c v).now = s.now := rfl
@[simp] theorem State.endCommand_params (s : State) (st : Status) (r : Byte) (c v : BitVec 4) :
    (s.endCommand st r c v).params = s.params := rfl
@[simp] theorem State.endCommand_agenda (s : State) (st : Status) (r : Byte) (c v : BitVec 4) :
    (s.endCommand st r c v).agenda = s.agenda := rfl
@[simp] theorem State.endCommand_during (s : State) (st : Status) (r : Byte) (c v : BitVec 4) :
    (s.endCommand st r c v).during = s.during := rfl
@[simp] theorem State.endCommand_portOut (s : State) (st : Status) (r : Byte) (c v : BitVec 4) :
    (s.endCommand st r c v).portOut = s.portOut := rfl

/-! ### `State.raise` -/

@[simp] theorem State.raise_baud (s : State) (st : Status) (c : BitVec 4) :
    (s.raise st c).baud = s.baud := rfl
@[simp] theorem State.raise_ident (s : State) (st : Status) (c : BitVec 4) :
    (s.raise st c).ident = s.ident := rfl
@[simp] theorem State.raise_slpctl (s : State) (st : Status) (c : BitVec 4) :
    (s.raise st c).slpctl = s.slpctl := rfl
@[simp] theorem State.raise_timeout (s : State) (st : Status) (c : BitVec 4) :
    (s.raise st c).timeout = s.timeout := rfl
@[simp] theorem State.raise_status (s : State) (st : Status) (c : BitVec 4) :
    (s.raise st c).status = st.code := rfl
@[simp] theorem State.raise_res (s : State) (st : Status) (c : BitVec 4) :
    (s.raise st c).res = 0#8 := rfl
@[simp] theorem State.raise_count (s : State) (st : Status) (c : BitVec 4) :
    (s.raise st c).count = c := rfl
@[simp] theorem State.raise_vcount (s : State) (st : Status) (c : BitVec 4) :
    (s.raise st c).vcount = 0#4 := rfl
@[simp] theorem State.raise_buf (s : State) (st : Status) (c : BitVec 4) :
    (s.raise st c).buf = s.buf := rfl
@[simp] theorem State.raise_waiting (s : State) (st : Status) (c : BitVec 4) :
    (s.raise st c).waiting = none := rfl
@[simp] theorem State.raise_trace (s : State) (st : Status) (c : BitVec 4) :
    (s.raise st c).trace = s.trace := rfl
@[simp] theorem State.raise_wire (s : State) (st : Status) (c : BitVec 4) :
    (s.raise st c).wire = s.wire := rfl
@[simp] theorem State.raise_chan (s : State) (st : Status) (c : BitVec 4) :
    (s.raise st c).chan = s.chan := rfl
@[simp] theorem State.raise_line (s : State) (st : Status) (c : BitVec 4) :
    (s.raise st c).line = s.line := rfl
@[simp] theorem State.raise_now (s : State) (st : Status) (c : BitVec 4) :
    (s.raise st c).now = s.now := rfl
@[simp] theorem State.raise_params (s : State) (st : Status) (c : BitVec 4) :
    (s.raise st c).params = s.params := rfl
@[simp] theorem State.raise_agenda (s : State) (st : Status) (c : BitVec 4) :
    (s.raise st c).agenda = s.agenda := rfl
@[simp] theorem State.raise_during (s : State) (st : Status) (c : BitVec 4) :
    (s.raise st c).during = s.during := rfl
@[simp] theorem State.raise_portOut (s : State) (st : Status) (c : BitVec 4) :
    (s.raise st c).portOut = s.portOut := rfl

/-! ### `State.logged` -/

@[simp] theorem State.logged_baud (s : State) (e : Call) :
    (s.logged e).baud = s.baud := rfl
@[simp] theorem State.logged_ident (s : State) (e : Call) :
    (s.logged e).ident = s.ident := rfl
@[simp] theorem State.logged_slpctl (s : State) (e : Call) :
    (s.logged e).slpctl = s.slpctl := rfl
@[simp] theorem State.logged_timeout (s : State) (e : Call) :
    (s.logged e).timeout = s.timeout := rfl
@[simp] theorem State.logged_status (s : State) (e : Call) :
    (s.logged e).status = s.status := rfl
@[simp] theorem State.logged_res (s : State) (e : Call) :
    (s.logged e).res = s.res := rfl
@[simp] theorem State.logged_count (s : State) (e : Call) :
    (s.logged e).count = s.count := rfl
@[simp] theorem State.logged_vcount (s : State) (e : Call) :
    (s.logged e).vcount = s.vcount := rfl
@[simp] theorem State.logged_buf (s : State) (e : Call) :
    (s.logged e).buf = s.buf := rfl
@[simp] theorem State.logged_waiting (s : State) (e : Call) :
    (s.logged e).waiting = s.waiting := rfl
@[simp] theorem State.logged_trace (s : State) (e : Call) :
    (s.logged e).trace = s.trace ++ [e] := rfl
@[simp] theorem State.logged_wire (s : State) (e : Call) :
    (s.logged e).wire = s.wire := rfl
@[simp] theorem State.logged_chan (s : State) (e : Call) :
    (s.logged e).chan = s.chan := rfl
@[simp] theorem State.logged_line (s : State) (e : Call) :
    (s.logged e).line = s.line := rfl
@[simp] theorem State.logged_now (s : State) (e : Call) :
    (s.logged e).now = s.now := rfl
@[simp] theorem State.logged_params (s : State) (e : Call) :
    (s.logged e).params = s.params := rfl
@[simp] theorem State.logged_agenda (s : State) (e : Call) :
    (s.logged e).agenda = s.agenda := rfl
@[simp] theorem State.logged_during (s : State) (e : Call) :
    (s.logged e).during = s.during := rfl
@[simp] theorem State.logged_portOut (s : State) (e : Call) :
    (s.logged e).portOut = s.portOut := rfl

/-! ### `State.setRate` -/

@[simp] theorem State.setRate_baud (s : State) (r : Rate) :
    (s.setRate r).baud = s.baud := rfl
@[simp] theorem State.setRate_ident (s : State) (r : Rate) :
    (s.setRate r).ident = s.ident := rfl
@[simp] theorem State.setRate_slpctl (s : State) (r : Rate) :
    (s.setRate r).slpctl = s.slpctl := rfl
@[simp] theorem State.setRate_timeout (s : State) (r : Rate) :
    (s.setRate r).timeout = s.timeout := rfl
@[simp] theorem State.setRate_status (s : State) (r : Rate) :
    (s.setRate r).status = s.status := rfl
@[simp] theorem State.setRate_res (s : State) (r : Rate) :
    (s.setRate r).res = s.res := rfl
@[simp] theorem State.setRate_count (s : State) (r : Rate) :
    (s.setRate r).count = s.count := rfl
@[simp] theorem State.setRate_vcount (s : State) (r : Rate) :
    (s.setRate r).vcount = s.vcount := rfl
@[simp] theorem State.setRate_buf (s : State) (r : Rate) :
    (s.setRate r).buf = s.buf := rfl
@[simp] theorem State.setRate_waiting (s : State) (r : Rate) :
    (s.setRate r).waiting = s.waiting := rfl
@[simp] theorem State.setRate_trace (s : State) (r : Rate) :
    (s.setRate r).trace = s.trace := rfl
@[simp] theorem State.setRate_wire (s : State) (r : Rate) :
    (s.setRate r).wire = s.wire := rfl
@[simp] theorem State.setRate_chan (s : State) (r : Rate) :
    (s.setRate r).chan = { s.chan with rate := some r } := rfl
@[simp] theorem State.setRate_line (s : State) (r : Rate) :
    (s.setRate r).line = s.line := rfl
@[simp] theorem State.setRate_now (s : State) (r : Rate) :
    (s.setRate r).now = s.now := rfl
@[simp] theorem State.setRate_params (s : State) (r : Rate) :
    (s.setRate r).params = s.params := rfl
@[simp] theorem State.setRate_agenda (s : State) (r : Rate) :
    (s.setRate r).agenda = s.agenda := rfl
@[simp] theorem State.setRate_during (s : State) (r : Rate) :
    (s.setRate r).during = s.during := rfl
@[simp] theorem State.setRate_portOut (s : State) (r : Rate) :
    (s.setRate r).portOut = s.portOut := rfl

/-! ### `State.queued` -/

@[simp] theorem State.queued_baud (s : State) (b : Byte) :
    (s.queued b).baud = s.baud := rfl
@[simp] theorem State.queued_ident (s : State) (b : Byte) :
    (s.queued b).ident = s.ident := rfl
@[simp] theorem State.queued_slpctl (s : State) (b : Byte) :
    (s.queued b).slpctl = s.slpctl := rfl
@[simp] theorem State.queued_timeout (s : State) (b : Byte) :
    (s.queued b).timeout = s.timeout := rfl
@[simp] theorem State.queued_status (s : State) (b : Byte) :
    (s.queued b).status = s.status := rfl
@[simp] theorem State.queued_res (s : State) (b : Byte) :
    (s.queued b).res = s.res := rfl
@[simp] theorem State.queued_count (s : State) (b : Byte) :
    (s.queued b).count = s.count := rfl
@[simp] theorem State.queued_vcount (s : State) (b : Byte) :
    (s.queued b).vcount = s.vcount := rfl
@[simp] theorem State.queued_buf (s : State) (b : Byte) :
    (s.queued b).buf = s.buf := rfl
@[simp] theorem State.queued_waiting (s : State) (b : Byte) :
    (s.queued b).waiting = s.waiting := rfl
@[simp] theorem State.queued_trace (s : State) (b : Byte) :
    (s.queued b).trace = s.trace := rfl
@[simp] theorem State.queued_wire (s : State) (b : Byte) :
    (s.queued b).wire = s.wire := rfl
@[simp] theorem State.queued_chan (s : State) (b : Byte) :
    (s.queued b).chan = { s.chan with txq := s.chan.txq ++ [b] } := rfl
@[simp] theorem State.queued_line (s : State) (b : Byte) :
    (s.queued b).line = s.line := rfl
@[simp] theorem State.queued_now (s : State) (b : Byte) :
    (s.queued b).now = s.now := rfl
@[simp] theorem State.queued_params (s : State) (b : Byte) :
    (s.queued b).params = s.params := rfl
@[simp] theorem State.queued_agenda (s : State) (b : Byte) :
    (s.queued b).agenda = s.agenda := rfl
@[simp] theorem State.queued_during (s : State) (b : Byte) :
    (s.queued b).during = s.during := rfl
@[simp] theorem State.queued_portOut (s : State) (b : Byte) :
    (s.queued b).portOut = s.portOut := rfl

/-! ### `State.flushed` -/

@[simp] theorem State.flushed_baud (s : State) (r : Rate) :
    (s.flushed r).baud = s.baud := rfl
@[simp] theorem State.flushed_ident (s : State) (r : Rate) :
    (s.flushed r).ident = s.ident := rfl
@[simp] theorem State.flushed_slpctl (s : State) (r : Rate) :
    (s.flushed r).slpctl = s.slpctl := rfl
@[simp] theorem State.flushed_timeout (s : State) (r : Rate) :
    (s.flushed r).timeout = s.timeout := rfl
@[simp] theorem State.flushed_status (s : State) (r : Rate) :
    (s.flushed r).status = s.status := rfl
@[simp] theorem State.flushed_res (s : State) (r : Rate) :
    (s.flushed r).res = s.res := rfl
@[simp] theorem State.flushed_count (s : State) (r : Rate) :
    (s.flushed r).count = s.count := rfl
@[simp] theorem State.flushed_vcount (s : State) (r : Rate) :
    (s.flushed r).vcount = s.vcount := rfl
@[simp] theorem State.flushed_buf (s : State) (r : Rate) :
    (s.flushed r).buf = s.buf := rfl
@[simp] theorem State.flushed_waiting (s : State) (r : Rate) :
    (s.flushed r).waiting = s.waiting := rfl
@[simp] theorem State.flushed_trace (s : State) (r : Rate) :
    (s.flushed r).trace = s.trace := rfl
@[simp] theorem State.flushed_wire (s : State) (r : Rate) :
    (s.flushed r).wire = s.wire ++ s.chan.txq.map (fun b => { byte := b, rate := r }) := rfl
@[simp] theorem State.flushed_chan (s : State) (r : Rate) :
    (s.flushed r).chan = { s.chan with txq := [] } := rfl
@[simp] theorem State.flushed_line (s : State) (r : Rate) :
    (s.flushed r).line = s.line := rfl
@[simp] theorem State.flushed_now (s : State) (r : Rate) :
    (s.flushed r).now = s.now := rfl
@[simp] theorem State.flushed_params (s : State) (r : Rate) :
    (s.flushed r).params = s.params := rfl
@[simp] theorem State.flushed_agenda (s : State) (r : Rate) :
    (s.flushed r).agenda = s.agenda := rfl
@[simp] theorem State.flushed_during (s : State) (r : Rate) :
    (s.flushed r).during = s.during := rfl
@[simp] theorem State.flushed_portOut (s : State) (r : Rate) :
    (s.flushed r).portOut = s.portOut := rfl

/-! ### `State.setRx` -/

@[simp] theorem State.setRx_baud (s : State) (q : List (List Byte)) :
    (s.setRx q).baud = s.baud := rfl
@[simp] theorem State.setRx_ident (s : State) (q : List (List Byte)) :
    (s.setRx q).ident = s.ident := rfl
@[simp] theorem State.setRx_slpctl (s : State) (q : List (List Byte)) :
    (s.setRx q).slpctl = s.slpctl := rfl
@[simp] theorem State.setRx_timeout (s : State) (q : List (List Byte)) :
    (s.setRx q).timeout = s.timeout := rfl
@[simp] theorem State.setRx_status (s : State) (q : List (List Byte)) :
    (s.setRx q).status = s.status := rfl
@[simp] theorem State.setRx_res (s : State) (q : List (List Byte)) :
    (s.setRx q).res = s.res := rfl
@[simp] theorem State.setRx_count (s : State) (q : List (List Byte)) :
    (s.setRx q).count = s.count := rfl
@[simp] theorem State.setRx_vcount (s : State) (q : List (List Byte)) :
    (s.setRx q).vcount = s.vcount := rfl
@[simp] theorem State.setRx_buf (s : State) (q : List (List Byte)) :
    (s.setRx q).buf = s.buf := rfl
@[simp] theorem State.setRx_waiting (s : State) (q : List (List Byte)) :
    (s.setRx q).waiting = s.waiting := rfl
@[simp] theorem State.setRx_trace (s : State) (q : List (List Byte)) :
    (s.setRx q).trace = s.trace := rfl
@[simp] theorem State.setRx_wire (s : State) (q : List (List Byte)) :
    (s.setRx q).wire = s.wire := rfl
@[simp] theorem State.setRx_chan (s : State) (q : List (List Byte)) :
    (s.setRx q).chan = { s.chan with rx := q } := rfl
@[simp] theorem State.setRx_line (s : State) (q : List (List Byte)) :
    (s.setRx q).line = s.line := rfl
@[simp] theorem State.setRx_now (s : State) (q : List (List Byte)) :
    (s.setRx q).now = s.now := rfl
@[simp] theorem State.setRx_params (s : State) (q : List (List Byte)) :
    (s.setRx q).params = s.params := rfl
@[simp] theorem State.setRx_agenda (s : State) (q : List (List Byte)) :
    (s.setRx q).agenda = s.agenda := rfl
@[simp] theorem State.setRx_during (s : State) (q : List (List Byte)) :
    (s.setRx q).during = s.during := rfl
@[simp] theorem State.setRx_portOut (s : State) (q : List (List Byte)) :
    (s.setRx q).portOut = s.portOut := rfl

/-! ### `State.setLevel` -/

@[simp] theorem State.setLevel_baud (s : State) (l : Level) :
    (s.setLevel l).baud = s.baud := rfl
@[simp] theorem State.setLevel_ident (s : State) (l : Level) :
    (s.setLevel l).ident = s.ident := rfl
@[simp] theorem State.setLevel_slpctl (s : State) (l : Level) :
    (s.setLevel l).slpctl = s.slpctl := rfl
@[simp] theorem State.setLevel_timeout (s : State) (l : Level) :
    (s.setLevel l).timeout = s.timeout := rfl
@[simp] theorem State.setLevel_status (s : State) (l : Level) :
    (s.setLevel l).status = s.status := rfl
@[simp] theorem State.setLevel_res (s : State) (l : Level) :
    (s.setLevel l).res = s.res := rfl
@[simp] theorem State.setLevel_count (s : State) (l : Level) :
    (s.setLevel l).count = s.count := rfl
@[simp] theorem State.setLevel_vcount (s : State) (l : Level) :
    (s.setLevel l).vcount = s.vcount := rfl
@[simp] theorem State.setLevel_buf (s : State) (l : Level) :
    (s.setLevel l).buf = s.buf := rfl
@[simp] theorem State.setLevel_waiting (s : State) (l : Level) :
    (s.setLevel l).waiting = s.waiting := rfl
@[simp] theorem State.setLevel_trace (s : State) (l : Level) :
    (s.setLevel l).trace = s.trace := rfl
@[simp] theorem State.setLevel_wire (s : State) (l : Level) :
    (s.setLevel l).wire = s.wire := rfl
@[simp] theorem State.setLevel_chan (s : State) (l : Level) :
    (s.setLevel l).chan = s.chan := rfl
@[simp] theorem State.setLevel_line (s : State) (l : Level) :
    (s.setLevel l).line = { s.line with level := some l } := rfl
@[simp] theorem State.setLevel_now (s : State) (l : Level) :
    (s.setLevel l).now = s.now := rfl
@[simp] theorem State.setLevel_params (s : State) (l : Level) :
    (s.setLevel l).params = s.params := rfl
@[simp] theorem State.setLevel_agenda (s : State) (l : Level) :
    (s.setLevel l).agenda = s.agenda := rfl
@[simp] theorem State.setLevel_during (s : State) (l : Level) :
    (s.setLevel l).during = s.during := rfl
@[simp] theorem State.setLevel_portOut (s : State) (l : Level) :
    (s.setLevel l).portOut = s.portOut := rfl

/-! ### `State.setSlpLevel` -/

@[simp] theorem State.setSlpLevel_baud (s : State) (b : Bool) :
    (s.setSlpLevel b).baud = s.baud := rfl
@[simp] theorem State.setSlpLevel_ident (s : State) (b : Bool) :
    (s.setSlpLevel b).ident = s.ident := rfl
@[simp] theorem State.setSlpLevel_slpctl (s : State) (b : Bool) :
    (s.setSlpLevel b).slpctl = withSlpLevel s.slpctl b := rfl
@[simp] theorem State.setSlpLevel_timeout (s : State) (b : Bool) :
    (s.setSlpLevel b).timeout = s.timeout := rfl
@[simp] theorem State.setSlpLevel_status (s : State) (b : Bool) :
    (s.setSlpLevel b).status = s.status := rfl
@[simp] theorem State.setSlpLevel_res (s : State) (b : Bool) :
    (s.setSlpLevel b).res = s.res := rfl
@[simp] theorem State.setSlpLevel_count (s : State) (b : Bool) :
    (s.setSlpLevel b).count = s.count := rfl
@[simp] theorem State.setSlpLevel_vcount (s : State) (b : Bool) :
    (s.setSlpLevel b).vcount = s.vcount := rfl
@[simp] theorem State.setSlpLevel_buf (s : State) (b : Bool) :
    (s.setSlpLevel b).buf = s.buf := rfl
@[simp] theorem State.setSlpLevel_waiting (s : State) (b : Bool) :
    (s.setSlpLevel b).waiting = s.waiting := rfl
@[simp] theorem State.setSlpLevel_trace (s : State) (b : Bool) :
    (s.setSlpLevel b).trace = s.trace := rfl
@[simp] theorem State.setSlpLevel_wire (s : State) (b : Bool) :
    (s.setSlpLevel b).wire = s.wire := rfl
@[simp] theorem State.setSlpLevel_chan (s : State) (b : Bool) :
    (s.setSlpLevel b).chan = s.chan := rfl
@[simp] theorem State.setSlpLevel_line (s : State) (b : Bool) :
    (s.setSlpLevel b).line = s.line := rfl
@[simp] theorem State.setSlpLevel_now (s : State) (b : Bool) :
    (s.setSlpLevel b).now = s.now := rfl
@[simp] theorem State.setSlpLevel_params (s : State) (b : Bool) :
    (s.setSlpLevel b).params = s.params := rfl
@[simp] theorem State.setSlpLevel_agenda (s : State) (b : Bool) :
    (s.setSlpLevel b).agenda = s.agenda := rfl
@[simp] theorem State.setSlpLevel_during (s : State) (b : Bool) :
    (s.setSlpLevel b).during = s.during := rfl
@[simp] theorem State.setSlpLevel_portOut (s : State) (b : Bool) :
    (s.setSlpLevel b).portOut = s.portOut := rfl

/-! ### `State.keepWaiting` -/

@[simp] theorem State.keepWaiting_baud (s : State) (w : Wait) :
    (s.keepWaiting w).baud = s.baud := rfl
@[simp] theorem State.keepWaiting_ident (s : State) (w : Wait) :
    (s.keepWaiting w).ident = s.ident := rfl
@[simp] theorem State.keepWaiting_slpctl (s : State) (w : Wait) :
    (s.keepWaiting w).slpctl = s.slpctl := rfl
@[simp] theorem State.keepWaiting_timeout (s : State) (w : Wait) :
    (s.keepWaiting w).timeout = s.timeout := rfl
@[simp] theorem State.keepWaiting_status (s : State) (w : Wait) :
    (s.keepWaiting w).status = s.status := rfl
@[simp] theorem State.keepWaiting_res (s : State) (w : Wait) :
    (s.keepWaiting w).res = s.res := rfl
@[simp] theorem State.keepWaiting_count (s : State) (w : Wait) :
    (s.keepWaiting w).count = s.count := rfl
@[simp] theorem State.keepWaiting_vcount (s : State) (w : Wait) :
    (s.keepWaiting w).vcount = s.vcount := rfl
@[simp] theorem State.keepWaiting_buf (s : State) (w : Wait) :
    (s.keepWaiting w).buf = s.buf := rfl
@[simp] theorem State.keepWaiting_waiting (s : State) (w : Wait) :
    (s.keepWaiting w).waiting = some w := rfl
@[simp] theorem State.keepWaiting_trace (s : State) (w : Wait) :
    (s.keepWaiting w).trace = s.trace := rfl
@[simp] theorem State.keepWaiting_wire (s : State) (w : Wait) :
    (s.keepWaiting w).wire = s.wire := rfl
@[simp] theorem State.keepWaiting_chan (s : State) (w : Wait) :
    (s.keepWaiting w).chan = s.chan := rfl
@[simp] theorem State.keepWaiting_line (s : State) (w : Wait) :
    (s.keepWaiting w).line = s.line := rfl
@[simp] theorem State.keepWaiting_now (s : State) (w : Wait) :
    (s.keepWaiting w).now = s.now := rfl
@[simp] theorem State.keepWaiting_params (s : State) (w : Wait) :
    (s.keepWaiting w).params = s.params := rfl
@[simp] theorem State.keepWaiting_agenda (s : State) (w : Wait) :
    (s.keepWaiting w).agenda = s.agenda := rfl
@[simp] theorem State.keepWaiting_during (s : State) (w : Wait) :
    (s.keepWaiting w).during = s.during := rfl
@[simp] theorem State.keepWaiting_portOut (s : State) (w : Wait) :
    (s.keepWaiting w).portOut = s.portOut := rfl

/-! ### `State.setIdent` -/

@[simp] theorem State.setIdent_baud (s : State) (b : Byte) :
    (s.setIdent b).baud = s.baud := rfl
@[simp] theorem State.setIdent_ident (s : State) (b : Byte) :
    (s.setIdent b).ident = b := rfl
@[simp] theorem State.setIdent_slpctl (s : State) (b : Byte) :
    (s.setIdent b).slpctl = s.slpctl := rfl
@[simp] theorem State.setIdent_timeout (s : State) (b : Byte) :
    (s.setIdent b).timeout = s.timeout := rfl
@[simp] theorem State.setIdent_status (s : State) (b : Byte) :
    (s.setIdent b).status = s.status := rfl
@[simp] theorem State.setIdent_res (s : State) (b : Byte) :
    (s.setIdent b).res = s.res := rfl
@[simp] theorem State.setIdent_count (s : State) (b : Byte) :
    (s.setIdent b).count = s.count := rfl
@[simp] theorem State.setIdent_vcount (s : State) (b : Byte) :
    (s.setIdent b).vcount = s.vcount := rfl
@[simp] theorem State.setIdent_buf (s : State) (b : Byte) :
    (s.setIdent b).buf = s.buf := rfl
@[simp] theorem State.setIdent_waiting (s : State) (b : Byte) :
    (s.setIdent b).waiting = s.waiting := rfl
@[simp] theorem State.setIdent_trace (s : State) (b : Byte) :
    (s.setIdent b).trace = s.trace := rfl
@[simp] theorem State.setIdent_wire (s : State) (b : Byte) :
    (s.setIdent b).wire = s.wire := rfl
@[simp] theorem State.setIdent_chan (s : State) (b : Byte) :
    (s.setIdent b).chan = s.chan := rfl
@[simp] theorem State.setIdent_line (s : State) (b : Byte) :
    (s.setIdent b).line = s.line := rfl
@[simp] theorem State.setIdent_now (s : State) (b : Byte) :
    (s.setIdent b).now = s.now := rfl
@[simp] theorem State.setIdent_params (s : State) (b : Byte) :
    (s.setIdent b).params = s.params := rfl
@[simp] theorem State.setIdent_agenda (s : State) (b : Byte) :
    (s.setIdent b).agenda = s.agenda := rfl
@[simp] theorem State.setIdent_during (s : State) (b : Byte) :
    (s.setIdent b).during = s.during := rfl
@[simp] theorem State.setIdent_portOut (s : State) (b : Byte) :
    (s.setIdent b).portOut = s.portOut := rfl

/-! ### `storeRead` -/

@[simp] theorem storeRead_baud (p : List Byte) (s : State) :
    (storeRead p s).baud = s.baud := rfl
@[simp] theorem storeRead_ident (p : List Byte) (s : State) :
    (storeRead p s).ident = s.ident := rfl
@[simp] theorem storeRead_slpctl (p : List Byte) (s : State) :
    (storeRead p s).slpctl = s.slpctl := rfl
@[simp] theorem storeRead_timeout (p : List Byte) (s : State) :
    (storeRead p s).timeout = s.timeout := rfl
@[simp] theorem storeRead_status (p : List Byte) (s : State) :
    (storeRead p s).status = s.status := rfl
@[simp] theorem storeRead_res (p : List Byte) (s : State) :
    (storeRead p s).res = s.res := rfl
@[simp] theorem storeRead_count (p : List Byte) (s : State) :
    (storeRead p s).count = s.count := rfl
@[simp] theorem storeRead_vcount (p : List Byte) (s : State) :
    (storeRead p s).vcount = s.vcount := rfl
@[simp] theorem storeRead_buf (p : List Byte) (s : State) :
    (storeRead p s).buf = s.buf.writeBytes 0 p := rfl
@[simp] theorem storeRead_waiting (p : List Byte) (s : State) :
    (storeRead p s).waiting = s.waiting := rfl
@[simp] theorem storeRead_trace (p : List Byte) (s : State) :
    (storeRead p s).trace = s.trace := rfl
@[simp] theorem storeRead_wire (p : List Byte) (s : State) :
    (storeRead p s).wire = s.wire := rfl
@[simp] theorem storeRead_chan (p : List Byte) (s : State) :
    (storeRead p s).chan = s.chan := rfl
@[simp] theorem storeRead_line (p : List Byte) (s : State) :
    (storeRead p s).line = s.line := rfl
@[simp] theorem storeRead_now (p : List Byte) (s : State) :
    (storeRead p s).now = s.now := rfl
@[simp] theorem storeRead_params (p : List Byte) (s : State) :
    (storeRead p s).params = s.params := rfl
@[simp] theorem storeRead_agenda (p : List Byte) (s : State) :
    (storeRead p s).agenda = s.agenda := rfl
@[simp] theorem storeRead_during (p : List Byte) (s : State) :
    (storeRead p s).during = s.during := rfl
@[simp] theorem storeRead_portOut (p : List Byte) (s : State) :
    (storeRead p s).portOut = s.portOut := rfl

end Sys2Proof.Machine
end

