-- ==== Sys2Proof/Laws/Memory.lean ====
section
/-! SUPPORT. BUF: what a write leaves to read, that every operation keeps the canonical form, and what the
operations over byte sequences do. -/

namespace Sys2Proof.Machine

open Sys2Proof.Config

theorem Memory.readByte_nil (i : Nat) : Memory.readByte [] i = none := rfl

theorem Memory.readByte_cons (a : Nat) (b : Byte) (m : Memory) (i : Nat) :
    Memory.readByte ((a, b) :: m) i = if a = i then some b else Memory.readByte m i := rfl

theorem Memory.mem_writeByte {m : Memory} {i : Nat} {v : Byte} {c : Host.Cell}
    (h : c ∈ Memory.writeByte m i v) : c = (i, v) ∨ c ∈ m := by
  induction m with
  | nil => simpa [Memory.writeByte] using h
  | cons d m ih =>
    obtain ⟨a, b⟩ := d
    rw [Memory.writeByte] at h
    split at h
    · simpa using h
    · split at h
      · rcases List.mem_cons.1 h with h | h
        · exact .inl h
        · exact .inr (List.mem_cons_of_mem _ h)
      · rcases List.mem_cons.1 h with h | h
        · exact .inr (h ▸ List.mem_cons_self)
        · exact (ih h).imp_right (List.mem_cons_of_mem _)

theorem Memory.writeByte_pairwise {m : Memory} (i : Nat) (v : Byte)
    (h : m.Pairwise (fun c d => c.1 < d.1)) :
    (Memory.writeByte m i v).Pairwise (fun c d => c.1 < d.1) := by
  induction m with
  | nil => simp [Memory.writeByte]
  | cons d m ih =>
    obtain ⟨a, b⟩ := d
    obtain ⟨hd, hm⟩ := List.pairwise_cons.1 h
    rw [Memory.writeByte]
    split
    · next hlt =>
      refine List.pairwise_cons.2 ⟨fun c hc => ?_, h⟩
      rcases List.mem_cons.1 hc with rfl | hc
      · exact hlt
      · exact Nat.lt_trans hlt (hd c hc)
    · split
      · next _ heq => exact List.pairwise_cons.2 ⟨fun c hc => heq ▸ hd c hc, hm⟩
      · next hlt hne =>
        refine List.pairwise_cons.2 ⟨fun c hc => ?_, ih hm⟩
        rcases Memory.mem_writeByte hc with rfl | hc
        · show a < i
          omega
        · exact hd c hc

/-- Writing inside BUF keeps the canonical form. -/
theorem Memory.writeByte_wf {m : Memory} {i : Nat} (v : Byte) (hi : i < bufCap) (h : Memory.wf m) :
    Memory.wf (Memory.writeByte m i v) :=
  ⟨Memory.writeByte_pairwise i v h.1, fun _ hc =>
    (Memory.mem_writeByte hc).elim (fun e => e ▸ hi) (h.2 _)⟩

/-- Writing a byte sequence inside BUF keeps the canonical form. -/
theorem Memory.writeBytes_wf {m : Memory} {a : Nat} {bs : List Byte} (hi : a + bs.length ≤ bufCap)
    (h : Memory.wf m) : Memory.wf (Memory.writeBytes m a bs) := by
  induction bs generalizing m a with
  | nil => exact h
  | cons b bs ih =>
    simp only [List.length_cons] at hi
    exact ih (by omega) (Memory.writeByte_wf b (by omega) h)

theorem Memory.wf_nil : Memory.wf [] := ⟨.nil, fun _ h => nomatch h⟩

/-- What `readBytes` answers when every byte holds a value. -/
theorem Memory.readBytes_ok {m : Memory} {a : Nat} {p : List Byte}
    (h : ∀ k, (hk : k < p.length) → m.readByte (a + k) = some p[k]) :
    m.readBytes a p.length = .ok p := by
  induction p generalizing a with
  | nil => rfl
  | cons b p ih =>
    have h0 : m.readByte a = some b := h 0 (Nat.zero_lt_succ _)
    have hs := ih (a := a + 1) fun k hk => by
      have := h (k + 1) (Nat.succ_lt_succ hk)
      rwa [show a + (k + 1) = a + 1 + k by omega] at this
    rw [List.length_cons, Memory.readBytes, h0, hs]

/-- An answer of `readBytes` has the length asked for, and its bytes are those BUF holds. -/
theorem Memory.readBytes_sound {m : Memory} {a n : Nat} {p : List Byte} (h : m.readBytes a n = .ok p) :
    p.length = n ∧ ∀ k, (hk : k < p.length) → m.readByte (a + k) = some p[k] := by
  induction n generalizing a p with
  | zero => cases h; simp
  | succ n ih =>
    rw [Memory.readBytes] at h
    split at h
    · cases h
    · next b hb =>
      split at h
      · cases h
      · next bs hbs =>
        cases h
        obtain ⟨hl, hv⟩ := ih hbs
        refine ⟨by simp [hl], fun k hk => ?_⟩
        cases k with
        | zero => simpa using hb
        | succ k =>
          have := hv k (by simpa using hk)
          rwa [show a + 1 + k = a + (k + 1) by omega] at this

end Sys2Proof.Machine
end

