-- ==== Sys2Proof/Laws/Ops.lean ====
section
/-! SUPPORT. What the other agents' moves and each collaborator call can do: one lemma for each, which later
proofs cite instead of unfolding it. -/

namespace Sys2Proof.Machine

open Sys2Proof.Config

/-- Bytes as wire events at one rate. -/
def stamped (r : Rate) (bs : List Byte) : List WireByte := bs.map fun b => { byte := b, rate := r }

@[simp] theorem wireBytes_stamped (r : Rate) (bs : List Byte) : wireBytes (stamped r bs) = bs := by
  simp [wireBytes, stamped, Function.comp_def]

@[simp] theorem wireBytes_append (w v : List WireByte) : wireBytes (w ++ v) = wireBytes w ++ wireBytes v := by
  simp [wireBytes]

@[simp] theorem bytesWritten_append (c d : List Call) :
    bytesWritten (c ++ d) = bytesWritten c ++ bytesWritten d := by
  induction c with
  | nil => rfl
  | cons e c ih => cases e <;> simp [bytesWritten, ih]

@[simp] theorem bytesWritten_writeCalls (p : List Byte) : bytesWritten (writeCalls p) = p := by
  induction p with
  | nil => rfl
  | cons b p ih => simpa [writeCalls, bytesWritten] using ih

/-- `t` is `s` after the environment's moves and `n` consumed gaps: at the current rate some bytes left the
head of the queue, some bytes arrived, the signal and the clock may have changed, nothing else did. -/
structure Drift (n : Nat) (s t : State) : Prop where
  frame : t = { s with chan := t.chan, wire := t.wire, now := t.now, during := t.during }
  rate : t.chan.rate = s.chan.rate
  sent : ∃ sent, s.chan.txq = sent ++ t.chan.txq ∧ (s.chan.rate = none → sent = []) ∧
    ∀ r, s.chan.rate = some r → t.wire = s.wire ++ stamped r sent
  still : s.chan.rate = none → t.wire = s.wire
  rx : s.rxKept t
  now : s.now ≤ t.now
  during : t.during = s.during.drop n

theorem Drift.refl (s : State) : Drift 0 s s where
  frame := rfl
  rate := rfl
  sent := ⟨[], by simp [stamped]⟩
  still := fun _ => rfl
  rx := ⟨[], by simp⟩
  now := Nat.le_refl _
  during := rfl

theorem Drift.trans {m n : Nat} {s t u : State} (h : Drift m s t) (k : Drift n t u) :
    Drift (m + n) s u where
  frame := by rw [k.frame, h.frame]
  rate := k.rate.trans h.rate
  sent := by
    obtain ⟨a, ha, na, wa⟩ := h.sent
    obtain ⟨b, hb, nb, wb⟩ := k.sent
    refine ⟨a ++ b, by rw [ha, hb, List.append_assoc], fun e => ?_, fun r e => ?_⟩
    · rw [na e, nb (h.rate.trans e)]; rfl
    · rw [wb r (h.rate.trans e), wa r e]; simp [stamped]
  still := fun e => (k.still (h.rate.trans e)).trans (h.still e)
  rx := by
    obtain ⟨a, ha⟩ := h.rx
    obtain ⟨b, hb⟩ := k.rx
    exact ⟨a ++ b, by rw [hb, ha, List.append_assoc]⟩
  now := Nat.le_trans h.now k.now
  during := by rw [k.during, h.during, List.drop_drop]

theorem applyMove_drift (m : Move) (s : State) : Drift 0 s (applyMove m s) := by
  cases m with
  | send =>
    simp only [applyMove, adapterSend]
    split
    · next r b q hr hq =>
      exact ⟨rfl, rfl, ⟨[b], by simp [hq], by simp [hr], by simp [hr, stamped]⟩, by simp [hr],
        ⟨[], by simp⟩, Nat.le_refl _, rfl⟩
    · exact Drift.refl s
  | receive p =>
    exact ⟨rfl, rfl, ⟨[], by simp [applyMove, stamped]⟩, fun _ => rfl, ⟨[p], rfl⟩, Nat.le_refl _, rfl⟩
  | signal b =>
    exact ⟨rfl, rfl, ⟨[], by simp [applyMove, stamped]⟩, fun _ => rfl, ⟨[], by simp [applyMove]⟩,
      Nat.le_refl _, rfl⟩
  | elapse n =>
    exact ⟨rfl, rfl, ⟨[], by simp [applyMove, stamped]⟩, fun _ => rfl, ⟨[], by simp [applyMove]⟩,
      Nat.le_add_right _ _, rfl⟩

/-- Moves of the environment change nothing of the block. -/
theorem applyMoves_drift (ms : List Move) (s : State) : Drift 0 s (applyMoves ms s) := by
  induction ms generalizing s with
  | nil => exact Drift.refl s
  | cons m ms ih => exact (applyMove_drift m s).trans (ih (applyMove m s))

/-- What happens before a call: the environment's moves and one consumed gap, or a reset after them. -/
theorem enterCall_cases (s : State) :
    (∃ t, enterCall s = .going () t ∧ Drift 1 s t) ∨
    (∃ g rest st t, s.during = g :: rest ∧ g.reset = some st ∧ Drift 1 s t ∧
      enterCall s = .halted (applyReset st t)) := by
  unfold enterCall
  split
  · next h =>
    exact .inl ⟨s, rfl, { Drift.refl s with during := by simp [h] }⟩
  · next g rest h =>
    have hd : Drift 1 s (applyMoves g.moves { s with during := rest }) := by
      have h1 : Drift 1 s { s with during := rest } :=
        ⟨rfl, rfl, ⟨[], by simp [stamped]⟩, fun _ => rfl, ⟨[], by simp⟩, Nat.le_refl _, by simp [h]⟩
      simpa using h1.trans (applyMoves_drift g.moves _)
    split
    · exact .inl ⟨_, rfl, hd⟩
    · next st hst => exact .inr ⟨g, rest, st, _, h, hst, hd, rfl⟩

theorem State.noReset_drop {s t : State} {n : Nat} (h : s.noReset) (hd : t.during = s.during.drop n) :
    t.noReset := fun g hg => h g (List.mem_of_mem_drop (hd ▸ hg))

/-- Without a reset the call is entered. -/
theorem enterCall_going {s : State} (h : s.noReset) : ∃ t, enterCall s = .going () t ∧ Drift 1 s t := by
  rcases enterCall_cases s with h1 | ⟨g, rest, st, _, hg, hst, _⟩
  · exact h1
  · rw [h g (hg ▸ List.mem_cons_self)] at hst
    cases hst

@[simp] theorem Run.bind_going {α β : Type} (a : α) (s : State) (k : α → State → Run β) :
    (Run.going a s).bind k = k a s := rfl

@[simp] theorem Run.bind_halted {α β : Type} (o : Out) (k : α → State → Run β) :
    (Run.halted o : Run α).bind k = .halted o := rfl

@[simp] theorem Run.finish_going {α : Type} (a : α) (s : State) (k : α → State → Out) :
    (Run.going a s).finish k = k a s := rfl

@[simp] theorem Run.finish_halted {α : Type} (o : Out) (k : α → State → Out) :
    (Run.halted o : Run α).finish k = o := rfl

theorem needRate_some {s : State} {r : Rate} (h : s.chan.rate = some r) : needRate s = .going r s := by
  simp [needRate, h]

theorem needRate_none {s : State} (h : s.chan.rate = none) :
    needRate s = .halted (.refused .channelNotOpen) := by
  simp [needRate, h]

/-! ### The collaborator calls, when no reset comes -/

theorem chanOpen_going {s : State} (r : Rate) (h : s.noReset) :
    ∃ u, Drift 1 s u ∧ chanOpen r s = .going () ((u.setRate r).logged (.chanOpen r)) := by
  obtain ⟨u, hu, hd⟩ := enterCall_going h
  exact ⟨u, hd, by simp [chanOpen, hu]⟩

theorem chanWrite_going {s : State} {r : Rate} (b : Byte) (h : s.noReset) (hr : s.chan.rate = some r) :
    ∃ u, Drift 1 s u ∧ chanWrite b s = .going () ((u.queued b).logged (.chanWrite b)) := by
  obtain ⟨u, hu, hd⟩ := enterCall_going h
  exact ⟨u, hd, by simp [chanWrite, hu, needRate_some (hd.rate.trans hr)]⟩

theorem chanFlush_going {s : State} {r : Rate} (h : s.noReset) (hr : s.chan.rate = some r) :
    ∃ u, Drift 1 s u ∧ chanFlush s = .going () ((u.flushed r).logged .chanFlush) := by
  obtain ⟨u, hu, hd⟩ := enterCall_going h
  exact ⟨u, hd, by simp [chanFlush, hu, needRate_some (hd.rate.trans hr)]⟩

theorem chanRead_going {s : State} {r : Rate} (n : Nat) (h : s.noReset) (hr : s.chan.rate = some r) :
    ∃ u, Drift 1 s u ∧ chanRead n s = .going (rxAnswer n u.chan.rx)
      ((u.setRx (rxAfter n u.chan.rx)).logged (.chanRead n (rxAnswer n u.chan.rx))) := by
  obtain ⟨u, hu, hd⟩ := enterCall_going h
  exact ⟨u, hd, by simp [chanRead, hu, needRate_some (hd.rate.trans hr)]⟩

theorem chanPollFE_going {s : State} {r : Rate} (h : s.noReset) (hr : s.chan.rate = some r) :
    ∃ u, Drift 1 s u ∧ chanPollFE s = .going u.chan.fe (u.logged (.chanPollFE u.chan.fe)) := by
  obtain ⟨u, hu, hd⟩ := enterCall_going h
  exact ⟨u, hd, by simp [chanPollFE, hu, needRate_some (hd.rate.trans hr)]⟩

theorem lineWrite_going {s : State} (l : Level) (h : s.noReset) :
    ∃ u, Drift 1 s u ∧ lineWrite l s = .going () ((u.setLevel l).logged (.lineWrite l)) := by
  obtain ⟨u, hu, hd⟩ := enterCall_going h
  exact ⟨u, hd, by simp [lineWrite, hu]⟩

theorem delayUs_going {s : State} (n : Nat) (h : s.noReset) :
    ∃ u, Drift 1 s u ∧ delayUs n s = .going () (u.logged (.delayUs n)) := by
  obtain ⟨u, hu, hd⟩ := enterCall_going h
  exact ⟨u, hd, by simp [delayUs, hu]⟩

theorem timeNow_going {s : State} (h : s.noReset) :
    ∃ u, Drift 1 s u ∧ timeNow s = .going u.now (u.logged (.timeNow u.now)) := by
  obtain ⟨u, hu, hd⟩ := enterCall_going h
  exact ⟨u, hd, by simp [timeNow, hu]⟩

/-- A read answers with at most the bytes asked for (`20_memory.md` R46). -/
theorem rxAnswer_length (n : Nat) (rx : List (List Byte)) : (rxAnswer n rx).length ≤ n := by
  cases rx with
  | nil => simp [rxAnswer]
  | cons p _ => exact List.length_take_le ..

/-- A read consumes exactly the bytes it returns (`20_memory.md` R46). -/
theorem rxAnswer_append_rxAfter (n : Nat) (rx : List (List Byte)) :
    rxAnswer n rx ++ (rxAfter n rx).flatten = rx.flatten := by
  cases rx with
  | nil => rfl
  | cons p rest =>
    simp only [rxAnswer, rxAfter]
    split
    · next h => simp [List.take_of_length_le h]
    · simp [← List.append_assoc]

end Sys2Proof.Machine
end

