-- ==== Sys2Proof/Laws/Calls.lean ====
section
/-! SUPPORT. What sequences of channel calls do when no reset comes: the pulse, the header, the payload. -/

namespace Sys2Proof.Machine

open Sys2Proof.Config

/-- `t` is `s` after the channel calls `cs` of a command (none of them ChanRead), each preceded by what the
environment did: only the trace, the channel, the wire, the clock and the gaps differ. -/
structure Ran (s t : State) (cs : List Call) : Prop where
  frame : t = { s with trace := s.trace ++ cs, chan := t.chan, wire := t.wire, now := t.now, during := t.during }
  env : s.envMoved t cs
  rx : s.rxKept t

theorem Ran.refl (s : State) : Ran s s [] where
  frame := by simp
  env := ⟨List.prefix_rfl, by simp [bytesWritten], Nat.le_refl _, rfl⟩
  rx := ⟨[], by simp⟩

theorem Ran.trans {s t u : State} {cs ds : List Call} (h : Ran s t cs) (k : Ran t u ds) :
    Ran s u (cs ++ ds) where
  frame := by
    rw [k.frame, h.frame]
    simp
  env := by
    obtain ⟨hp, hb, hn, hd⟩ := h.env
    obtain ⟨kp, kb, kn, kd⟩ := k.env
    refine ⟨hp.trans kp, ?_, Nat.le_trans hn kn, ?_⟩
    · rw [kb, hb]; simp
    · rw [kd, hd, List.drop_drop, List.length_append]
  rx := by
    obtain ⟨a, ha⟩ := h.rx
    obtain ⟨b, hb⟩ := k.rx
    exact ⟨a ++ b, by rw [hb, ha, List.append_assoc]⟩

/-- No reset is still to come after calls that met none. -/
theorem Ran.noReset {s t : State} {cs : List Call} (h : Ran s t cs) (hs : s.noReset) : t.noReset :=
  State.noReset_drop hs h.env.2.2.2

/-- Bytes that left were the head of the queue: nothing is lost in a drift. -/
theorem Drift.conserves {n : Nat} {s t : State} (h : Drift n s t) :
    s.wire <+: t.wire ∧ wireBytes t.wire ++ t.chan.txq = wireBytes s.wire ++ s.chan.txq := by
  obtain ⟨sent, hq, hn, hw⟩ := h.sent
  cases hr : s.chan.rate with
  | none => simp [h.still hr, hq, hn hr]
  | some r => simp [hw r hr, hq]

/-- A drift of one gap and then one update that logs a call is a run of that call. -/
theorem Drift.ran {s u t : State} {c : Call} (h : Drift 1 s u)
    (hf : t = { u with trace := u.trace ++ [c], chan := t.chan, wire := t.wire })
    (hw : u.wire <+: t.wire)
    (hb : wireBytes t.wire ++ t.chan.txq = wireBytes u.wire ++ u.chan.txq ++ bytesWritten [c])
    (hrx : t.chan.rx = u.chan.rx) : Ran s t [c] where
  frame := by rw [hf, h.frame]
  env := by
    obtain ⟨hp, hc⟩ := h.conserves
    refine ⟨hp.trans hw, by rw [hb, hc], ?_, ?_⟩
    · rw [hf]; exact h.now
    · rw [hf]; exact h.during
  rx := by
    obtain ⟨a, ha⟩ := h.rx
    exact ⟨a, hrx.trans ha⟩

theorem chanOpen_ran {s : State} (r : Rate) (h : s.noReset) :
    ∃ t sent, chanOpen r s = .going () t ∧ Ran s t [.chanOpen r] ∧ t.chan.rate = some r ∧
      s.chan.txq = sent ++ t.chan.txq ∧ (sent = [] → t.wire = s.wire) := by
  obtain ⟨u, hd, hu⟩ := chanOpen_going r h
  obtain ⟨sent, hq, hn, hw⟩ := hd.sent
  refine ⟨_, sent, hu, hd.ran rfl List.prefix_rfl (by simp [bytesWritten]) rfl, rfl, hq, fun e => ?_⟩
  cases hr : s.chan.rate with
  | none => exact hd.still hr
  | some r' => simpa [e, stamped] using hw r' hr

theorem chanWrite_ran {s : State} {r : Rate} (b : Byte) (h : s.noReset) (hr : s.chan.rate = some r) :
    ∃ t sent, chanWrite b s = .going () t ∧ Ran s t [.chanWrite b] ∧ t.chan.rate = some r ∧
      s.chan.txq ++ [b] = sent ++ t.chan.txq ∧ t.wire = s.wire ++ stamped r sent := by
  obtain ⟨u, hd, hu⟩ := chanWrite_going b h hr
  obtain ⟨sent, hq, _, hw⟩ := hd.sent
  refine ⟨_, sent, hu, hd.ran rfl List.prefix_rfl (by simp [bytesWritten]) rfl, hd.rate.trans hr, ?_,
    hw r hr⟩
  simp [hq]

theorem chanFlush_ran {s : State} {r : Rate} (h : s.noReset) (hr : s.chan.rate = some r) :
    ∃ t, chanFlush s = .going () t ∧ Ran s t [.chanFlush] ∧ t.chan.rate = some r ∧
      t.chan.txq = [] ∧ t.wire = s.wire ++ stamped r s.chan.txq := by
  obtain ⟨u, hd, hu⟩ := chanFlush_going h hr
  obtain ⟨sent, hq, _, hw⟩ := hd.sent
  refine ⟨_, hu, hd.ran rfl (by simp) ?_ rfl, hd.rate.trans hr, rfl, ?_⟩
  · simp [bytesWritten, wireBytes, Function.comp_def]
  · simp [hw r hr, hq, stamped]

/-- ChanWrite of each byte at one rate: the queue grows by the bytes, less what left at that rate. -/
theorem chanWrites_ran {s : State} {r : Rate} (p : List Byte) (h : s.noReset) (hr : s.chan.rate = some r) :
    ∃ t sent, chanWrites p s = .going () t ∧ Ran s t (writeCalls p) ∧ t.chan.rate = some r ∧
      s.chan.txq ++ p = sent ++ t.chan.txq ∧ t.wire = s.wire ++ stamped r sent := by
  induction p generalizing s with
  | nil => exact ⟨s, [], rfl, Ran.refl s, hr, by simp, by simp [stamped]⟩
  | cons b p ih =>
    obtain ⟨t, a, ht, hran, htr, hq, hw⟩ := chanWrite_ran b h hr
    obtain ⟨u, c, hu, hran', hur, hq', hw'⟩ := ih (hran.noReset h) htr
    refine ⟨u, a ++ c, by simp [chanWrites, ht, hu], hran.trans hran', hur, ?_, ?_⟩
    · rw [List.append_assoc, ← hq', ← List.append_assoc, ← hq]; simp
    · rw [hw', hw]; simp [stamped]

/-- A pulse: the zero byte leaves at the lowered rate, after whatever was queued before, and the channel is left
idle at the normal rate (`41_bus_signaling.md` R120, R121). -/
theorem pulse_ran {s : State} (lowered normal : Rate) (h : s.noReset) :
    ∃ t, pulse lowered normal s = .going () t ∧ Ran s t (pulseCalls lowered normal) ∧
      t.chan.rate = some normal ∧ t.chan.txq = [] ∧
      (∃ w, s.wire <+: w ∧ t.wire = w ++ stamped lowered [0x00#8]) ∧
      (s.chan.txq = [] → t.wire = s.wire ++ stamped lowered [0x00#8]) := by
  obtain ⟨t1, a, e1, r1, c1, q1, w1⟩ := chanOpen_ran lowered h
  have n1 := r1.noReset h
  obtain ⟨t2, b, e2, r2, c2, q2, w2⟩ := chanWrite_ran breakByte n1 c1
  have n2 := r2.noReset n1
  obtain ⟨t3, e3, r3, c3, q3, w3⟩ := chanFlush_ran n2 c2
  obtain ⟨t4, d, e4, r4, c4, q4, w4⟩ := chanOpen_ran normal (r3.noReset n2)
  rw [q3] at q4
  obtain ⟨rfl, hq4⟩ : d = [] ∧ t4.chan.txq = [] := by simpa using q4.symm
  have hw : t4.wire = t1.wire ++ stamped lowered (t1.chan.txq ++ [breakByte]) := by
    rw [w4 rfl, w3, w2, q2]; simp [stamped]
  have hran := ((r1.trans r2).trans r3).trans r4
  refine ⟨t4, by simp [pulse, e1, e2, e3, e4], hran, c4, hq4, ?_, fun e => ?_⟩
  · refine ⟨t1.wire ++ stamped lowered t1.chan.txq, r1.env.1.trans (List.prefix_append _ _), ?_⟩
    rw [hw]; simp [stamped, breakByte]
  · rw [e] at q1
    obtain ⟨rfl, hq1⟩ : a = [] ∧ t1.chan.txq = [] := by simpa using q1.symm
    rw [hw, hq1, w1 rfl]; rfl

/-- The header: the break, then sync and identifier at the configured rate (`43_frame_operations.md` R150). -/
theorem sendHeader_ran {s : State} (id : Byte) (h : s.noReset) :
    ∃ t, sendHeader id s = .going () t ∧ Ran s t (headerCalls s.baud id) ∧ t.chan.rate = some s.baud ∧
      (s.chan.txq = [] → ∃ sent, [0x55#8, id] = sent ++ t.chan.txq ∧
        t.wire = s.wire ++ stamped (s.baud / 2#32) [0x00#8] ++ stamped s.baud sent) := by
  obtain ⟨t1, e1, r1, c1, q1, _, w1⟩ := pulse_ran (s.baud / 2#32) s.baud h
  have n1 := r1.noReset h
  obtain ⟨t2, a, e2, r2, c2, q2, w2⟩ := chanWrites_ran [0x55#8, id] n1 c1
  refine ⟨t2, ?_, r1.trans r2, c2, fun e => ⟨a, by simpa [q1] using q2, by rw [w2, w1 e]⟩⟩
  simp only [sendHeader, sendBreak, halfRate, e1, Run.bind_going]
  simp only [chanWrites] at e2
  rw [← e2]
  simp only [sync, Run.bind]
  cases chanWrite 0x55#8 t1 with
  | halted o => rfl
  | going x y => simp only; cases chanWrite id y <;> rfl

/-- A drift of one gap and then a call that only logs. -/
theorem Drift.logs {s u : State} {c : Call} (h : Drift 1 s u) (hc : bytesWritten [c] = []) :
    Ran s (u.logged c) [c] :=
  h.ran rfl List.prefix_rfl (by simp [hc]) rfl

theorem timeNow_ran {s : State} (h : s.noReset) :
    ∃ t, timeNow s = .going t.now t ∧ Ran s t [.timeNow t.now] ∧ t.chan.rate = s.chan.rate ∧
      s.now ≤ t.now := by
  obtain ⟨u, d, e⟩ := timeNow_going h
  exact ⟨u.logged (.timeNow u.now), e, d.logs rfl, d.rate, d.now⟩

theorem chanPollFE_ran {s : State} {r : Rate} (h : s.noReset) (hr : s.chan.rate = some r) :
    ∃ t, chanPollFE s = .going t.chan.fe t ∧ Ran s t [.chanPollFE t.chan.fe] ∧
      t.chan.rate = s.chan.rate := by
  obtain ⟨u, d, e⟩ := chanPollFE_going h hr
  exact ⟨u.logged (.chanPollFE u.chan.fe), e, d.logs rfl, d.rate⟩

/-- One pass of WBREAK's loop, made after the calls `pre` of the same step (`41_bus_signaling.md` R124). -/
theorem waitPass_outcome {s0 s : State} {w : Wait} {pre : List Call} (h0 : s0.noReset) (hr0 : Ran s0 s pre)
    (ho : s.channelOpen) (he : s.chan.rate = s0.chan.rate) :
    ∃ t, waitPass w s = .next t ∧ s0.passOutcome t w pre := by
  obtain ⟨r, hr⟩ := Option.isSome_iff_exists.1 ho
  obtain ⟨t1, e1, r1, c1⟩ := chanPollFE_ran (hr0.noReset h0) hr
  have r01 := hr0.trans r1
  cases hfe : t1.chan.fe with
  | true =>
    rw [hfe] at r01 e1
    refine ⟨t1.endCommand .ok 1#8 0#4 0#4, by simp [waitPass, e1, boolRes], c1.trans he,
      .inl ⟨?_, r01.env, r01.rx⟩⟩
    rw [r01.frame]; rfl
  | false =>
    rw [hfe] at r01 e1
    by_cases hb : w.budget = tMax
    · refine ⟨t1.keepWaiting w, by simp [waitPass, e1, waitTimeTest, hb], c1.trans he,
        .inr (.inl ⟨hb, ?_, r01.env, r01.rx⟩)⟩
      rw [r01.frame]; rfl
    · obtain ⟨t2, e2, r2, c2, _⟩ := timeNow_ran (r01.noReset h0)
      have r02 := r01.trans r2
      simp only [List.append_assoc] at r02
      by_cases ht : w.budget.toNat ≤ t2.now - w.t0
      · refine ⟨t2.raise .timeout 0#4, by simp [waitPass, e1, waitTimeTest, hb, e2, ht],
          c2.trans (c1.trans he), .inr (.inr (.inl ⟨hb, t2.now, ht, ?_, r02.env, r02.rx⟩))⟩
        rw [r02.frame]; rfl
      · refine ⟨t2.keepWaiting w, by simp [waitPass, e1, waitTimeTest, hb, e2, ht],
          c2.trans (c1.trans he), .inr (.inr (.inr ⟨hb, t2.now, by omega, ?_, r02.env, r02.rx⟩))⟩
        rw [r02.frame]; rfl

/-- SLPCTL with SLP_LEVEL replaced: the field takes the value, the others are as before. -/
theorem withSlpLevel_fields : ∀ (c : BitVec 3) (b : Bool),
    slpLevel (withSlpLevel c b) = b ∧ slpOe (withSlpLevel c b) = slpOe c ∧
    hasSlp (withSlpLevel c b) = hasSlp c ∧ withSlpLevel (withSlpLevel c b) b = withSlpLevel c b := by
  decide

/-- `enterSleep` as a number. -/
theorem enterSleep_eq (arg : Byte) : enterSleep arg = decide (arg.toNat % 2 = 1) := by
  simp [enterSleep, BitVec.getLsbD, Nat.testBit_zero]

/-- Driving the control line: the level, SLP_LEVEL and two calls, nothing else of the block
(`42_transceiver_control.md` R143). -/
theorem driveLine_ran {s : State} (b : Bool) (h : s.noReset) :
    ∃ t, driveLine b s = .going () t ∧
      t = { s with
        line := { s.line with level := some (levelOf b) }, slpctl := withSlpLevel s.slpctl b,
        trace := s.trace ++ [.lineWrite (levelOf b), .delayUs 20],
        chan := t.chan, wire := t.wire, now := t.now, during := t.during } ∧
      t.chan.rate = s.chan.rate ∧ s.envKept t [.lineWrite (levelOf b), .delayUs 20] := by
  obtain ⟨u, d, e⟩ := lineWrite_going (levelOf b) h
  have hn : u.noReset := State.noReset_drop h d.during
  obtain ⟨v, d2, e2⟩ := delayUs_going
    (s := ((u.setLevel (levelOf b)).logged (.lineWrite (levelOf b))).setSlpLevel b) 20 hn
  refine ⟨v.logged (.delayUs 20), by simp [driveLine, e, tSettle, e2], ?_, d2.rate.trans d.rate,
    ⟨?_, ?_, ?_, ?_⟩, ?_⟩
  · rw [d2.frame, d.frame]; simp [State.logged, State.setLevel, State.setSlpLevel]
  · exact d.conserves.1.trans d2.conserves.1
  · have := d2.conserves.2; have := d.conserves.2; simp_all [bytesWritten]
  · exact Nat.le_trans d.now d2.now
  · have a := d2.during
    have c := d.during
    show v.during = _
    rw [a]
    show u.during.drop 1 = _
    rw [c, List.drop_drop]; rfl
  · obtain ⟨x, hx⟩ := d.rx
    obtain ⟨y, hy⟩ := d2.rx
    exact ⟨x ++ y, by simp at hy ⊢; rw [hy, hx]; simp⟩

/-- Reading BUF[0 .. len(p)-1] gives the bytes it holds. -/
theorem State.holds_readBytes {s : State} {p : List Byte} (h : s.holds p) :
    s.buf.readBytes 0 p.length = .ok p :=
  Memory.readBytes_ok fun k hk => by simpa using h k hk

/-- The bytes BUF[0 .. LEN-1] go to the command when they hold values. -/
theorem withPayload_holds {s : State} {p : List Byte} {len : BitVec 4} (hl : p.length = len.toNat)
    (h : s.holds p) (k : List Byte → Out) : withPayload len s k = k p := by
  simp only [withPayload, ← hl, State.holds_readBytes h]

/-- A command with a payload that answers a next state has read the bytes BUF holds. -/
theorem withPayload_next {len : BitVec 4} {s t : State} {k : List Byte → Out}
    (h : withPayload len s k = .next t) :
    ∃ p, p.length = len.toNat ∧ s.holds p ∧ k p = .next t := by
  unfold withPayload at h
  split at h
  · cases h
  · next p hp =>
    obtain ⟨hl, hv⟩ := Memory.readBytes_sound hp
    exact ⟨p, hl, fun k hk => by simpa using hv k hk, h⟩

/-- ChanRead: the answer, at most `n` bytes, is taken from the bytes waiting or arriving; nothing else of the block
changes (`20_memory.md` R46). -/
theorem chanRead_ran {s : State} {r : Rate} (n : Nat) (h : s.noReset) (hr : s.chan.rate = some r) :
    ∃ t bytes, chanRead n s = .going bytes t ∧
      t = { s with
        trace := s.trace ++ [.chanRead n bytes],
        chan := t.chan, wire := t.wire, now := t.now, during := t.during } ∧
      s.envMoved t [.chanRead n bytes] ∧ t.chan.rate = s.chan.rate ∧ bytes.length ≤ n ∧
      (∃ arrived, (s.chan.rx ++ arrived).flatten = bytes ++ t.chan.rx.flatten) ∧
      (s.during = [] → bytes = (s.chan.rx.headD []).take n ∧ t.chan.rx = rxAfter n s.chan.rx) := by
  obtain ⟨u, hu, e⟩ := enterCall_going h
  obtain ⟨hw, hc⟩ := e.conserves
  obtain ⟨x, hx⟩ := e.rx
  refine ⟨(u.setRx (rxAfter n u.chan.rx)).logged (.chanRead n (rxAnswer n u.chan.rx)),
    rxAnswer n u.chan.rx, by simp [chanRead, hu, needRate_some (e.rate.trans hr)], ?_,
    ⟨hw, ?_, e.now, e.during⟩, e.rate, rxAnswer_length .., ⟨x, ?_⟩, fun hd => ?_⟩
  · have f := e.frame
    generalize rxAnswer n u.chan.rx = b
    generalize rxAfter n u.chan.rx = c
    rw [f]; rfl
  · simpa [bytesWritten] using hc
  · rw [← hx, ← rxAnswer_append_rxAfter n u.chan.rx]; simp
  · have : u = s := by simpa [enterCall, hd, eq_comm] using hu
    subst this
    exact ⟨by cases u.chan.rx <;> simp [rxAnswer], rfl⟩

/-- The state after the reset sequence (`70_reset_and_hazards.md` R212, R213). -/
theorem resetSequence_eq (st : Straps) (s : State) : resetSequence st s = { s with
    baud := st.pBaud, ident := st.pIdent, slpctl := if st.pHasSlp then 0b110#3 else 0b000#3,
    timeout := 0#32, status := 0#3, res := 0#8, count := 0#4, vcount := 0#4,
    buf := [], waiting := none,
    trace := if st.pHasSlp then [.lineSetMode .output, .lineWrite .low] else [],
    line := if st.pHasSlp then { mode := some .output, level := some .low }
      else { mode := none, level := none } } := by
  obtain ⟨a, b, c⟩ := st
  have h1 : hasSlp 0b100#3 = true := by decide
  have h0 : hasSlp 0b000#3 = false := by decide
  have hw : withSlpLevel (0b100#3 ||| 0b010#3) false = 0b110#3 := by decide
  cases c
  · simp [resetSequence, cfgSlp, h0, Status.code]
  · simp only [resetSequence, cfgSlp, if_true, h1, hw, State.logged]; rfl

end Sys2Proof.Machine
end

