-- ==== Sys2Proof/Laws/Abandon.lean ====
section
/-! SUPPORT. A command and the resets that may come before its calls (`70_reset_and_hazards.md` R210): either its
calls were made and met no reset, or the first reset that came has abandoned it. -/

namespace Sys2Proof.Machine

open Sys2Proof.Config

/-- `s` is reached from `s0` by the calls `cs` of a command, which met no reset; nothing else of the block changed. -/
structure Made (s0 s : State) (cs : List Call) : Prop where
  frame : s = { s0 with
    trace := s0.trace ++ cs, chan := s.chan, wire := s.wire, now := s.now, during := s.during }
  env : s0.envMoved s cs
  noReset : ∀ g ∈ s0.during.take cs.length, g.reset = none

/-- `t` is the state after the first reset that came before a call of a command begun in `s`, before call `k`: the
values of R212, and the bytes of the first `k` calls of `plan` still queued or sent. -/
def Abandoned (s t : State) (plan : List Call) : Prop :=
  ∃ k g st, s.during[k]? = some g ∧ g.reset = some st ∧ st.valid ∧
    (∀ g' ∈ s.during.take k, g'.reset = none) ∧ s.resetAs t st ∧
    s.wire <+: t.wire ∧
    wireBytes t.wire ++ t.chan.txq = wireBytes s.wire ++ s.chan.txq ++ bytesWritten (plan.take k) ∧
    s.now ≤ t.now ∧ t.during = s.during.drop (k + 1)

/-- A run goes on after calls that met no reset and are as `C` says, or it was abandoned. -/
def Run.MadeOrAbandoned {α : Type} (s0 : State) (plan : List Call) (C : List Call → Prop) (r : Run α) : Prop :=
  match r with
  | .going _ s => ∃ cs, Made s0 s cs ∧ C cs
  | .halted o => ∀ t, o = .next t → Abandoned s0 t plan

/-- The calls `cs` write the bytes that `plan` writes in as many calls. -/
abbrev Fits (plan cs : List Call) : Prop := bytesWritten (plan.take cs.length) = bytesWritten cs

/-- The first calls of a plan fit it. -/
theorem Fits.front {plan cs : List Call} (h : cs <+: plan) : Fits plan cs := by
  obtain ⟨rest, rfl⟩ := h; simp [Fits]

/-- Calls that write no byte fit the empty plan. -/
theorem Fits.nothing {cs : List Call} (h : bytesWritten cs = []) : Fits [] cs := by simp [Fits, h, bytesWritten]

theorem Made.refl (s : State) : Made s s [] :=
  ⟨by simp, ⟨List.prefix_rfl, by simp [bytesWritten], Nat.le_refl _, by simp⟩, by simp⟩

theorem Run.MadeOrAbandoned.bind {α β : Type} {s0 : State} {plan : List Call} {C D : List Call → Prop}
    {r : Run α} {k : α → State → Run β} (h : r.MadeOrAbandoned s0 plan C)
    (hk : ∀ a s cs, Made s0 s cs → C cs → (k a s).MadeOrAbandoned s0 plan D) :
    (r.bind k).MadeOrAbandoned s0 plan D := by
  cases r with
  | going a s => obtain ⟨cs, hm, hc⟩ := h; exact hk a s cs hm hc
  | halted o => exact h

theorem Run.MadeOrAbandoned.finish {α : Type} {s0 t : State} {plan : List Call} {C : List Call → Prop}
    {r : Run α} {k : α → State → Out} {P : Prop} (h : r.MadeOrAbandoned s0 plan C)
    (hk : ∀ a s cs, Made s0 s cs → C cs → k a s = .next t → P ∨ Abandoned s0 t plan)
    (e : r.finish k = .next t) : P ∨ Abandoned s0 t plan := by
  cases r with
  | going a s => obtain ⟨cs, hm, hc⟩ := h; exact hk a s cs hm hc e
  | halted o => exact .inr (h t e)

/-- A call entered without a reset: the environment has moved and one more gap is consumed. -/
structure Entered (s0 s : State) (cs : List Call) : Prop where
  frame : s = { s0 with
    trace := s0.trace ++ cs, chan := s.chan, wire := s.wire, now := s.now, during := s.during }
  wire : s0.wire <+: s.wire
  bytes : wireBytes s.wire ++ s.chan.txq = wireBytes s0.wire ++ s0.chan.txq ++ bytesWritten cs
  now : s0.now ≤ s.now
  during : s.during = s0.during.drop (cs.length + 1)
  noReset : ∀ g ∈ s0.during.take (cs.length + 1), g.reset = none

theorem Made.drift {s0 s t : State} {cs : List Call} (h : Made s0 s cs) (d : Drift 1 s t)
    (hr : ∀ g ∈ s0.during.take (cs.length + 1), g.reset = none) : Entered s0 t cs := by
  obtain ⟨c1, c2⟩ := d.conserves
  refine ⟨?_, h.env.1.trans c1, c2.trans h.env.2.1, Nat.le_trans h.env.2.2.1 d.now, ?_, hr⟩
  · rw [d.frame, h.frame]
  · rw [d.during, h.env.2.2.2, List.drop_drop]

/-- Before the next call of a command that has made the calls `cs`. -/
theorem Made.enterCall {s0 s : State} {plan cs : List Call} (h : Made s0 s cs) (hf : Fits plan cs) :
    (∃ t, enterCall s = .going () t ∧ Entered s0 t cs) ∨
    ∃ o, Machine.enterCall s = .halted o ∧ ∀ t, o = .next t → Abandoned s0 t plan := by
  have hdu : s.during = s0.during.drop cs.length := h.env.2.2.2
  cases hd : s.during with
  | nil =>
    refine .inl ⟨s, by simp [Machine.enterCall, hd],
      h.drift { Drift.refl s with during := by simp [hd] } ?_⟩
    have hl : s0.during.length ≤ cs.length := by rw [hd] at hdu; simpa using hdu.symm
    intro g hg
    rw [List.take_of_length_le (by omega)] at hg
    exact h.noReset g (by rwa [List.take_of_length_le hl])
  | cons g rest =>
    have hg : s0.during[cs.length]? = some g := by
      have : (s0.during.drop cs.length)[0]? = some g := by rw [← hdu, hd]; rfl
      simpa using this
    have d : Drift 1 s (applyMoves g.moves { s with during := rest }) := by
      have h1 : Drift 1 s { s with during := rest } :=
        ⟨rfl, rfl, ⟨[], by simp [stamped]⟩, fun _ => rfl, ⟨[], by simp⟩, Nat.le_refl _, by simp [hd]⟩
      simpa using h1.trans (applyMoves_drift g.moves _)
    cases hr : g.reset with
    | none =>
      refine .inl ⟨_, by simp [Machine.enterCall, hd, hr], h.drift d fun g' hg' => ?_⟩
      rw [List.take_add_one, hg] at hg'
      rcases List.mem_append.1 hg' with h1 | h1
      · exact h.noReset g' h1
      · simp at h1; rw [h1, hr]
    | some st =>
      refine .inr ⟨applyReset st (applyMoves g.moves { s with during := rest }),
        by simp [Machine.enterCall, hd, hr], fun t ht => ?_⟩
      generalize applyMoves g.moves { s with during := rest } = u at d ht
      simp only [applyReset] at ht
      split at ht
      · next hv =>
        rw [resetSequence_eq] at ht
        cases ht
        refine ⟨cs.length, g, st, hg, hr, hv, h.noReset, ⟨?_, fun hs => by simp [hs]⟩,
          h.env.1.trans d.conserves.1, ?_, Nat.le_trans h.env.2.2.1 d.now, ?_⟩
        · have f := d.frame
          rw [h.frame] at f
          rw [f]
        · rw [hf]; exact d.conserves.2.trans h.env.2.1
        · show u.during = _
          rw [d.during, hdu, List.drop_drop]
      · cases ht

/-- A call made after it was entered. -/
theorem Entered.made {s0 s t : State} {cs : List Call} (c : Call) (h : Entered s0 s cs)
    (hf : t = { s with trace := s.trace ++ [c], chan := t.chan, wire := t.wire })
    (hw : s.wire <+: t.wire)
    (hb : wireBytes t.wire ++ t.chan.txq = wireBytes s.wire ++ s.chan.txq ++ bytesWritten [c]) :
    Made s0 t (cs ++ [c]) := by
  have hn : t.now = s.now := by rw [hf]
  have hd : t.during = s.during := by rw [hf]
  refine ⟨?_, ⟨h.wire.trans hw, by rw [hb, h.bytes]; simp, hn ▸ h.now, by rw [hd, h.during]; simp⟩,
    by simpa using h.noReset⟩
  rw [hf, h.frame]
  simp

/-- What follows the entry of a call: the call is made, or a reset comes before it. -/
theorem Made.enterCall_bind {β : Type} {s0 s : State} {plan cs : List Call} {C : List Call → Prop}
    {k : Unit → State → Run β} (h : Made s0 s cs) (hf : Fits plan cs)
    (hk : ∀ u, Entered s0 u cs → (k () u).MadeOrAbandoned s0 plan C) :
    ((Machine.enterCall s).bind k).MadeOrAbandoned s0 plan C := by
  rcases h.enterCall hf with ⟨u, e, m⟩ | ⟨o, e, ho⟩
  · rw [e]; exact hk u m
  · rw [e]; exact ho

theorem needRate_madeOrAbandoned {β : Type} {s0 s : State} {plan : List Call} {C : List Call → Prop}
    {k : Rate → State → Run β} (hk : ∀ r, (k r s).MadeOrAbandoned s0 plan C) :
    ((needRate s).bind k).MadeOrAbandoned s0 plan C := by
  unfold needRate
  split
  · exact hk _
  · exact fun t ht => nomatch ht

/-! ### The collaborator calls -/

section Calls

variable {s0 s : State} {plan cs : List Call}

theorem chanOpen_madeOrAbandoned (r : Rate) (h : Made s0 s cs) (hf : Fits plan cs) :
    (chanOpen r s).MadeOrAbandoned s0 plan (· = cs ++ [.chanOpen r]) :=
  h.enterCall_bind hf fun _ m => ⟨_, m.made _ rfl List.prefix_rfl (by simp [bytesWritten]), rfl⟩

theorem chanWrite_madeOrAbandoned (b : Byte) (h : Made s0 s cs) (hf : Fits plan cs) :
    (chanWrite b s).MadeOrAbandoned s0 plan (· = cs ++ [.chanWrite b]) :=
  h.enterCall_bind hf fun _ m => needRate_madeOrAbandoned fun _ =>
    ⟨_, m.made _ rfl List.prefix_rfl (by simp [bytesWritten]), rfl⟩

theorem chanFlush_madeOrAbandoned (h : Made s0 s cs) (hf : Fits plan cs) :
    (chanFlush s).MadeOrAbandoned s0 plan (· = cs ++ [.chanFlush]) :=
  h.enterCall_bind hf fun _ m => needRate_madeOrAbandoned fun _ =>
    ⟨_, m.made _ rfl (by simp) (by simp [bytesWritten, wireBytes, Function.comp_def]), rfl⟩

theorem chanRead_madeOrAbandoned (n : Nat) (h : Made s0 s cs) (hf : Fits plan cs) :
    (chanRead n s).MadeOrAbandoned s0 plan (fun ds => ∃ bs, ds = cs ++ [.chanRead n bs]) :=
  h.enterCall_bind hf fun _ m => needRate_madeOrAbandoned fun _ =>
    ⟨_, m.made _ rfl List.prefix_rfl (by simp [bytesWritten]), _, rfl⟩

theorem chanPollFE_madeOrAbandoned (h : Made s0 s cs) (hf : Fits plan cs) :
    (chanPollFE s).MadeOrAbandoned s0 plan (fun ds => ∃ b, ds = cs ++ [.chanPollFE b]) :=
  h.enterCall_bind hf fun _ m => needRate_madeOrAbandoned fun _ =>
    ⟨_, m.made _ rfl List.prefix_rfl (by simp [bytesWritten]), _, rfl⟩

theorem delayUs_madeOrAbandoned (n : Nat) (h : Made s0 s cs) (hf : Fits plan cs) :
    (delayUs n s).MadeOrAbandoned s0 plan (· = cs ++ [.delayUs n]) :=
  h.enterCall_bind hf fun _ m => ⟨_, m.made _ rfl List.prefix_rfl (by simp [bytesWritten]), rfl⟩

theorem timeNow_madeOrAbandoned (h : Made s0 s cs) (hf : Fits plan cs) :
    (timeNow s).MadeOrAbandoned s0 plan (fun ds => ∃ t, ds = cs ++ [.timeNow t]) :=
  h.enterCall_bind hf fun _ m => ⟨_, m.made _ rfl List.prefix_rfl (by simp [bytesWritten]), _, rfl⟩

theorem chanWrites_madeOrAbandoned (p : List Byte) (h : Made s0 s cs) (hp : cs ++ writeCalls p <+: plan) :
    (chanWrites p s).MadeOrAbandoned s0 plan (· = cs ++ writeCalls p) := by
  induction p generalizing s cs with
  | nil => exact ⟨cs, h, by simp [writeCalls]⟩
  | cons b p ih =>
    have e : cs ++ writeCalls (b :: p) = (cs ++ [.chanWrite b]) ++ writeCalls p := by simp [writeCalls]
    rw [e] at hp ⊢
    refine (chanWrite_madeOrAbandoned b h
      (.front (((List.prefix_append _ _).trans (List.prefix_append _ _)).trans hp))).bind
      fun _ _ _ h hd => ?_
    subst hd
    exact ih h hp

theorem pulse_madeOrAbandoned (lowered normal : Rate) (h : Made s0 s cs)
    (hp : cs ++ pulseCalls lowered normal <+: plan) :
    (pulse lowered normal s).MadeOrAbandoned s0 plan (· = cs ++ pulseCalls lowered normal) := by
  have e : cs ++ pulseCalls lowered normal =
      cs ++ [.chanOpen lowered] ++ [.chanWrite breakByte] ++ [.chanFlush] ++ [.chanOpen normal] := by
    simp [pulseCalls, breakByte]
  rw [e] at hp ⊢
  have p3 := (List.prefix_append _ _).trans hp
  have p2 := (List.prefix_append _ _).trans p3
  have p1 := (List.prefix_append _ _).trans p2
  refine (chanOpen_madeOrAbandoned lowered h (.front ((List.prefix_append _ _).trans p1))).bind
    fun _ _ _ h e => ?_
  subst e
  refine (chanWrite_madeOrAbandoned breakByte h (.front p1)).bind fun _ _ _ h e => ?_
  subst e
  refine (chanFlush_madeOrAbandoned h (.front p2)).bind fun _ _ _ h e => ?_
  subst e
  exact chanOpen_madeOrAbandoned normal h (.front p3)

theorem sendHeader_madeOrAbandoned (id : Byte) (h : Made s0 s cs)
    (hp : cs ++ headerCalls s.baud id <+: plan) :
    (sendHeader id s).MadeOrAbandoned s0 plan (· = cs ++ headerCalls s.baud id) := by
  have e : cs ++ headerCalls s.baud id =
      cs ++ pulseCalls (s.baud / 2#32) s.baud ++ [.chanWrite sync] ++ [.chanWrite id] := by
    simp [headerCalls, sync]
  rw [e] at hp ⊢
  have p2 := (List.prefix_append _ _).trans hp
  have p1 := (List.prefix_append _ _).trans p2
  refine (pulse_madeOrAbandoned _ _ h p1).bind fun _ _ _ h e => ?_
  subst e
  refine (chanWrite_madeOrAbandoned sync h (.front p1)).bind fun _ _ _ h e => ?_
  subst e
  exact chanWrite_madeOrAbandoned id h (.front p2)

end Calls

end Sys2Proof.Machine
end

