-- ==== Sys2Proof/Laws/Decode.lean ====
section
/-! SUPPORT. The fields of a word put together from an opcode, LEN and ARG, and of the command an opcode
selects. -/

namespace Sys2Proof

/-- A word as a number. -/
theorem word_toNat (o l : BitVec 4) (a : Byte) :
    (o ++ l ++ a : CmdWord).toNat = o.toNat * 4096 + l.toNat * 256 + a.toNat := by
  have h1 : (o ++ l ++ a : CmdWord).toNat = (o ++ l : BitVec 8).toNat <<< 8 ||| a.toNat :=
    BitVec.toNat_append ..
  have h2 : (o ++ l : BitVec 8).toNat = o.toNat <<< 4 ||| l.toNat := BitVec.toNat_append ..
  rw [h1, h2, ← Nat.shiftLeft_add_eq_or_of_lt a.isLt, ← Nat.shiftLeft_add_eq_or_of_lt l.isLt]
  simp only [Nat.shiftLeft_eq]
  omega

@[simp] theorem cwOp_word (o l : BitVec 4) (a : Byte) : cwOp (o ++ l ++ a) = o := by
  apply BitVec.eq_of_toNat_eq
  have := o.isLt; have := l.isLt; have := a.isLt
  rw [cwOp, BitVec.extractLsb'_toNat, word_toNat, Nat.shiftRight_eq_div_pow]
  omega

@[simp] theorem cwLen_word (o l : BitVec 4) (a : Byte) : cwLen (o ++ l ++ a) = l := by
  apply BitVec.eq_of_toNat_eq
  have := o.isLt; have := l.isLt; have := a.isLt
  rw [cwLen, BitVec.extractLsb'_toNat, word_toNat, Nat.shiftRight_eq_div_pow]
  omega

@[simp] theorem cwArg_word (o l : BitVec 4) (a : Byte) : cwArg (o ++ l ++ a) = a := by
  apply BitVec.eq_of_toNat_eq
  have := o.isLt; have := l.isLt; have := a.isLt
  rw [cwArg, BitVec.extractLsb'_toNat, word_toNat, Nat.shiftRight_eq_div_pow]
  omega

end Sys2Proof
end

