-- ==== Sys2Proof/Laws/Keeps.lean ====
section
/-! SUPPORT. Carrying a property of the state through the calls of a command, with a reset allowed before any of
them: the collaborator calls keep what `State.Inv` says apart from a WBREAK in progress. -/

namespace Sys2Proof.Machine

open Sys2Proof.Config

/-- `State.Inv` without its clause on a WBREAK in progress, which is between passes no property of the state. -/
structure State.Quiet (s : State) : Prop where
  buf : Memory.wf s.buf
  baud : s.baudValid
  slpctl : s.slpctlLegal
  line : s.lineAgrees
  results : s.resultsLegal
  queue : s.queueHasRate
  params : s.params.valid

/-- A property that the environment's moves, consumed gaps and logged calls keep, and that is enough for a reset. -/
structure Stable (P : State → Prop) : Prop where
  move : ∀ m s, P s → P (applyMove m s)
  during : ∀ d s, P s → P { s with during := d }
  log : ∀ c s, P s → P (s.logged c)
  enough : ∀ s, P s → s.params.valid ∧ s.queueHasRate

/-- A run goes on with `P`, or a reset has left a state with `State.Inv`. -/
def Run.Keeps {α : Type} (P : State → Prop) (r : Run α) : Prop :=
  match r with
  | .going _ s => P s
  | .halted o => ∀ t, o = .next t → t.Inv

theorem Run.Keeps.bind {α β : Type} {P Q : State → Prop} {r : Run α} {k : α → State → Run β}
    (h : r.Keeps P) (hk : ∀ a s, P s → (k a s).Keeps Q) : (r.bind k).Keeps Q := by
  cases r with
  | going a s => exact hk a s h
  | halted o => exact h

theorem Run.Keeps.finish {α : Type} {P : State → Prop} {r : Run α} {k : α → State → Out} {t : State}
    (h : r.Keeps P) (hk : ∀ a s, P s → k a s = .next t → t.Inv) (e : r.finish k = .next t) : t.Inv := by
  cases r with
  | going a s => exact hk a s h e
  | halted o => exact h t e

theorem applyMove_queueHasRate (m : Move) {s : State} (h : s.queueHasRate) :
    (applyMove m s).queueHasRate := by
  cases m with
  | send =>
    simp only [applyMove, adapterSend]
    split
    · next r b q hr hq => intro _; simp [hr]
    · exact h
  | receive p => exact h
  | signal b => exact h
  | elapse n => exact h

theorem State.Quiet.stable : Stable State.Quiet where
  move m s h := by
    have d := (applyMove_drift m s).frame
    refine ⟨?_, ?_, ?_, ?_, ?_, applyMove_queueHasRate m h.queue, ?_⟩ <;> rw [d]
    · exact h.buf
    · exact h.baud
    · exact h.slpctl
    · exact h.line
    · exact h.results
    · exact h.params
  during d s h := ⟨h.buf, h.baud, h.slpctl, h.line, h.results, h.queue, h.params⟩
  log d s h := ⟨h.buf, h.baud, h.slpctl, h.line, h.results, h.queue, h.params⟩
  enough s h := ⟨h.params, h.queue⟩

/-- Reset leaves `State.Inv`. -/
theorem applyReset_inv {st : Straps} {s t : State} (hp : s.params.valid) (hq : s.queueHasRate)
    (h : applyReset st s = .next t) : t.Inv := by
  unfold applyReset at h
  split at h
  · next hv =>
    obtain ⟨a, b, c⟩ := st
    rw [resetSequence_eq] at h
    cases h
    cases c
    · exact ⟨Memory.wf_nil, hv,
        (by decide : slpOe 0#3 = hasSlp 0#3 ∧ (hasSlp 0#3 = false → slpLevel 0#3 = false)),
        (fun h => absurd h (by decide : ¬ hasSlp 0#3 = true)),
        ⟨(by decide : 0#3 ≠ 7#3), .inl rfl, fun _ => rfl⟩, (fun w hw => by cases hw), hq, hp⟩
    · exact ⟨Memory.wf_nil, hv,
        (by decide : slpOe 6#3 = hasSlp 6#3 ∧ (hasSlp 6#3 = false → slpLevel 6#3 = false)),
        (fun _ => ⟨rfl, (by decide : some Level.low = some (levelOf (slpLevel 6#3)))⟩),
        ⟨(by decide : 0#3 ≠ 7#3), .inl rfl, fun _ => rfl⟩, (fun w hw => by cases hw), hq, hp⟩
  · cases h

theorem enterCall_keeps {P : State → Prop} (hP : Stable P) {s : State} (h : P s) : (enterCall s).Keeps P := by
  have hm : ∀ ms s, P s → P (applyMoves ms s) := by
    intro ms
    induction ms with
    | nil => exact fun s h => h
    | cons m ms ih => exact fun s h => ih _ (hP.move m s h)
  unfold enterCall
  split
  · exact h
  · split
    · exact hm _ _ (hP.during _ _ h)
    · intro t ht
      exact applyReset_inv (hP.enough _ (hm _ _ (hP.during _ _ h))).1
        (hP.enough _ (hm _ _ (hP.during _ _ h))).2 ht

theorem needRate_keeps {β : Type} {P : State → Prop} {s : State} {k : Rate → State → Run β}
    (hk : ∀ r, s.chan.rate = some r → (k r s).Keeps P) : ((needRate s).bind k).Keeps P := by
  unfold needRate
  split
  · exact hk _ ‹_›
  · exact fun t ht => nomatch ht

/-- The codes of the statuses are the codes below 7 (`10_state.md` R19). -/
theorem Status.code_ne_seven (st : Status) : st.code ≠ 7#3 := by cases st <;> decide

/-- The end of a command that writes COUNT = 0 and VCOUNT = 0. -/
theorem State.Quiet.ended {s : State} (h : s.Quiet) (st : Status) (res : Byte) :
    (s.endCommand st res 0#4 0#4).Inv :=
  ⟨h.buf, h.baud, h.slpctl, h.line, ⟨st.code_ne_seven, .inl rfl, fun _ => rfl⟩, (fun w hw => by cases hw),
    h.queue, h.params⟩

theorem chanOpen_keeps {s : State} (r : Rate) (h : s.Quiet) : (chanOpen r s).Keeps State.Quiet :=
  (enterCall_keeps State.Quiet.stable h).bind fun _ s h => State.Quiet.stable.log _ _
    (show (s.setRate r).Quiet from
      ⟨h.buf, h.baud, h.slpctl, h.line, h.results, fun _ => rfl, h.params⟩)

theorem chanWrite_keeps {s : State} (b : Byte) (h : s.Quiet) : (chanWrite b s).Keeps State.Quiet :=
  (enterCall_keeps State.Quiet.stable h).bind fun _ s h => needRate_keeps fun q hq =>
    State.Quiet.stable.log _ _ (show (s.queued b).Quiet from
      ⟨h.buf, h.baud, h.slpctl, h.line, h.results, (fun _ => by simp [hq]), h.params⟩)

theorem chanWrites_keeps {s : State} (p : List Byte) (h : s.Quiet) : (chanWrites p s).Keeps State.Quiet := by
  induction p generalizing s with
  | nil => exact h
  | cons b p ih => exact (chanWrite_keeps b h).bind fun _ _ h => ih h

theorem chanFlush_keeps {s : State} (h : s.Quiet) : (chanFlush s).Keeps State.Quiet :=
  (enterCall_keeps State.Quiet.stable h).bind fun _ s h => needRate_keeps fun q _ =>
    State.Quiet.stable.log _ _ (show (s.flushed q).Quiet from
      ⟨h.buf, h.baud, h.slpctl, h.line, h.results, (fun h => (h rfl).elim), h.params⟩)

end Sys2Proof.Machine
end

