-- ==== Sys2Proof/Laws/PerInstr.lean ====
section
/-! SUPPORT. Statements made of every command, one lemma for each constructor of `Instr`. -/

namespace Sys2Proof.Laws

/-- The three fields of a command's word are its opcode, its LEN and its ARG (`30_encoding.md` R80, R81). -/
def EncodeFields.Statement (i : Instr) : Prop :=
  cwOp (encode i) = i.op ∧ cwLen (encode i) = i.len ∧ cwArg (encode i) = i.arg

namespace EncodeFields

theorem cksum (len : BitVec 4) (arg : Byte) : Statement (.cksum len arg) :=
  ⟨cwOp_word .., cwLen_word .., cwArg_word ..⟩

theorem vcksum (len : BitVec 4) (arg : Byte) : Statement (.vcksum len arg) :=
  ⟨cwOp_word .., cwLen_word .., cwArg_word ..⟩

theorem genid (len : BitVec 4) (arg : Byte) : Statement (.genid len arg) :=
  ⟨cwOp_word .., cwLen_word .., cwArg_word ..⟩

theorem valid (len : BitVec 4) (arg : Byte) : Statement (.valid len arg) :=
  ⟨cwOp_word .., cwLen_word .., cwArg_word ..⟩

theorem brk (len : BitVec 4) (arg : Byte) : Statement (.brk len arg) :=
  ⟨cwOp_word .., cwLen_word .., cwArg_word ..⟩

theorem wbreak (len : BitVec 4) (arg : Byte) : Statement (.wbreak len arg) :=
  ⟨cwOp_word .., cwLen_word .., cwArg_word ..⟩

theorem wakeup (len : BitVec 4) (arg : Byte) : Statement (.wakeup len arg) :=
  ⟨cwOp_word .., cwLen_word .., cwArg_word ..⟩

theorem sleep (len : BitVec 4) (arg : Byte) : Statement (.sleep len arg) :=
  ⟨cwOp_word .., cwLen_word .., cwArg_word ..⟩

theorem write (len : BitVec 4) (arg : Byte) : Statement (.write len arg) :=
  ⟨cwOp_word .., cwLen_word .., cwArg_word ..⟩

theorem wrreq (len : BitVec 4) (arg : Byte) : Statement (.wrreq len arg) :=
  ⟨cwOp_word .., cwLen_word .., cwArg_word ..⟩

theorem wrresp (len : BitVec 4) (arg : Byte) : Statement (.wrresp len arg) :=
  ⟨cwOp_word .., cwLen_word .., cwArg_word ..⟩

theorem wrstrm (len : BitVec 4) (arg : Byte) : Statement (.wrstrm len arg) :=
  ⟨cwOp_word .., cwLen_word .., cwArg_word ..⟩

theorem read (len : BitVec 4) (arg : Byte) : Statement (.read len arg) :=
  ⟨cwOp_word .., cwLen_word .., cwArg_word ..⟩

theorem rdstrm (len : BitVec 4) (arg : Byte) : Statement (.rdstrm len arg) :=
  ⟨cwOp_word .., cwLen_word .., cwArg_word ..⟩

theorem setid (len : BitVec 4) (arg : Byte) : Statement (.setid len arg) :=
  ⟨cwOp_word .., cwLen_word .., cwArg_word ..⟩

theorem reservedF (len : BitVec 4) (arg : Byte) : Statement (.reservedF len arg) :=
  ⟨cwOp_word .., cwLen_word .., cwArg_word ..⟩

end EncodeFields

end Sys2Proof.Laws
end

