-- ==== Sys2Proof/Laws/Results.lean ====
section
/-! SUPPORT. Two runs that differ only in the result registers (`10_state.md` R25): every collaborator call does the
same in both. -/

namespace Sys2Proof.Machine

open Sys2Proof.Config

/-- Values for STATUS, RES, COUNT and VCOUNT. -/
structure Results where
  status : BitVec 3
  res : Byte
  count : BitVec 4
  vcount : BitVec 4

/-- `s` with other values in the result registers. -/
def State.withResults (s : State) (q : Results) : State :=
  { s with status := q.status, res := q.res, count := q.count, vcount := q.vcount }

/-- The two runs go on alike, or stop alike. -/
def Run.Alike {α : Type} (q : Results) (r r' : Run α) : Prop :=
  match r, r' with
  | .going a s, .going a' s' => a = a' ∧ s' = s.withResults q
  | .halted o, .halted o' => o = o'
  | _, _ => False

theorem Run.Alike.bind {α β : Type} {q : Results} {r r' : Run α} {k k' : α → State → Run β}
    (h : r.Alike q r') (hk : ∀ a s, (k a s).Alike q (k' a (s.withResults q))) :
    (r.bind k).Alike q (r'.bind k') := by
  cases r with
  | going a s =>
    cases r' with
    | going a' s' => obtain ⟨rfl, rfl⟩ := h; exact hk a s
    | halted o' => exact h.elim
  | halted o =>
    cases r' with
    | going a' s' => exact h.elim
    | halted o' => exact h

theorem applyMoves_withResults (ms : List Move) (s : State) (q : Results) :
    applyMoves ms (s.withResults q) = (applyMoves ms s).withResults q := by
  induction ms generalizing s with
  | nil => rfl
  | cons m ms ih =>
    have h : applyMove m (s.withResults q) = (applyMove m s).withResults q := by
      cases m with
      | send =>
        show adapterSend (s.withResults q) = (adapterSend s).withResults q
        have hc : (s.withResults q).chan = s.chan := rfl
        unfold adapterSend
        rw [hc]
        split <;> rfl
      | receive p => rfl
      | signal b => rfl
      | elapse n => rfl
    rw [applyMoves, applyMoves, h, ih]

theorem applyReset_withResults (st : Straps) (s : State) (q : Results) :
    applyReset st (s.withResults q) = applyReset st s := by
  simp only [applyReset, resetSequence_eq]; rfl

theorem enterCall_alike (s : State) (q : Results) : (enterCall s).Alike q (enterCall (s.withResults q)) := by
  have hd : (s.withResults q).during = s.during := rfl
  unfold enterCall
  rw [hd]
  cases s.during with
  | nil => exact ⟨rfl, rfl⟩
  | cons g rest =>
    have e : applyMoves g.moves ({ s.withResults q with during := rest }) =
        (applyMoves g.moves { s with during := rest }).withResults q :=
      applyMoves_withResults g.moves { s with during := rest } q
    cases hr : g.reset with
    | none => simp only [hr]; exact ⟨rfl, e⟩
    | some st =>
      simp only [hr]
      show applyReset _ _ = applyReset _ _
      rw [e, applyReset_withResults]

theorem needRate_alike {β : Type} (s : State) (q : Results) {k k' : Rate → State → Run β}
    (hk : ∀ r, (k r s).Alike q (k' r (s.withResults q))) :
    ((needRate s).bind k).Alike q ((needRate (s.withResults q)).bind k') := by
  have hc : (s.withResults q).chan = s.chan := rfl
  unfold needRate
  rw [hc]
  cases s.chan.rate with
  | some r => exact hk r
  | none => rfl

end Sys2Proof.Machine
end

