-- ==== Sys2Proof/Tests/Slice0.lean ====
section
/-! SUPPORT. The model's own tests: ill-formed commands are refused by the check of WellFormed.lean, words written
out from `30_encoding.md` R80 to R88 decode to their commands, single steps give the results of the vectors of
`95_test_vectors.md` (named V-…), and every statement of Obligations.lean with hypotheses has a state that meets
them. -/

namespace Sys2Proof.Tests

open Sys2Proof Sys2Proof.Machine Sys2Proof.Config

/-! ### WellFormed: one ill-formed command for each check (R85, R88) -/

theorem test_illformed_arg_not_used :
    (Instr.cksum 3#4 0xAB#8).wellFormed = false ∧ (Instr.vcksum 3#4 1#8).wellFormed = false ∧
    (Instr.brk 0#4 0x7E#8).wellFormed = false ∧ (Instr.wbreak 0#4 1#8).wellFormed = false ∧
    (Instr.wakeup 0#4 1#8).wellFormed = false ∧ (Instr.wrresp 2#4 1#8).wellFormed = false ∧
    (Instr.wrstrm 2#4 0x42#8).wellFormed = false ∧ (Instr.read 5#4 1#8).wellFormed = false ∧
    (Instr.rdstrm 2#4 0x80#8).wellFormed = false := by decide

theorem test_illformed_len_not_used :
    (Instr.genid 7#4 1#8).wellFormed = false ∧ (Instr.valid 1#4 0xC1#8).wellFormed = false ∧
    (Instr.brk 3#4 0#8).wellFormed = false ∧ (Instr.wbreak 1#4 0#8).wellFormed = false ∧
    (Instr.wakeup 8#4 0#8).wellFormed = false ∧ (Instr.sleep 5#4 1#8).wellFormed = false ∧
    (Instr.wrreq 15#4 0xC1#8).wellFormed = false ∧ (Instr.setid 2#4 0x42#8).wellFormed = false := by decide

theorem test_illformed_arg_bits_not_used :
    (Instr.genid 0#4 0x40#8).wellFormed = false ∧ (Instr.genid 0#4 0x80#8).wellFormed = false ∧
    (Instr.sleep 0#4 0x02#8).wellFormed = false ∧ (Instr.sleep 0#4 0xFE#8).wellFormed = false := by decide

theorem test_illformed_reserved : (Instr.reservedF 0#4 0#8).wellFormed = false := by decide

theorem test_wellformed_syntax :
    (Instr.write 15#4 0xFF#8).wellFormed = true ∧ (Instr.genid 0#4 0x3F#8).wellFormed = true ∧
    (Instr.sleep 0#4 1#8).wellFormed = true ∧ (Instr.cksum 15#4 0#8).wellFormed = true := by decide

/-! ### Words written out from the encodings (R80, R82, R88) -/

theorem test_decode_codec :
    decodeWord 0b0000_0011_00000000#16 = .cksum 3#4 0x00#8 ∧
    decodeWord 0b0001_0100_00000000#16 = .vcksum 4#4 0x00#8 ∧
    decodeWord 0b0010_0000_00000001#16 = .genid 0#4 0x01#8 ∧
    decodeWord 0b0011_0000_11000001#16 = .valid 0#4 0xC1#8 ∧
    decodeWord 0b1110_0000_01000010#16 = .setid 0#4 0x42#8 := by decide

theorem test_decode_signaling :
    decodeWord 0b0100_0000_00000000#16 = .brk 0#4 0x00#8 ∧
    decodeWord 0b0101_0000_00000000#16 = .wbreak 0#4 0x00#8 ∧
    decodeWord 0b0110_0000_00000000#16 = .wakeup 0#4 0x00#8 ∧
    decodeWord 0b0111_0000_00000001#16 = .sleep 0#4 0x01#8 := by decide

theorem test_decode_frames :
    decodeWord 0b1000_0011_11000001#16 = .write 3#4 0xC1#8 ∧
    decodeWord 0b1001_0000_11000001#16 = .wrreq 0#4 0xC1#8 ∧
    decodeWord 0b1010_0010_00000000#16 = .wrresp 2#4 0x00#8 ∧
    decodeWord 0b1011_0010_00000000#16 = .wrstrm 2#4 0x00#8 ∧
    decodeWord 0b1100_0101_00000000#16 = .read 5#4 0x00#8 ∧
    decodeWord 0b1101_0010_00000000#16 = .rdstrm 2#4 0x00#8 ∧
    decodeWord 0b1111_0001_00100011#16 = .reservedF 1#4 0x23#8 := by decide

theorem test_encode_write : encode (.write 3#4 0xC1#8) = 0x83C1#16 := by decide

theorem test_table_word_too_wide : decodeTableWord 16 0x10000 = none ∧ decodeTableWord 17 0 = none := by decide

/-! ### One step from a small state -/

/-- The state after the command word `w`, if there is one. -/
def after (s : State) (w : Nat) : Option State :=
  match step (s.withFetchWord 16 w) with
  | .next t => some t
  | .fault _ => none
  | .refused _ => none

/-- The four result registers after the command word `w`: STATUS, RES, COUNT, VCOUNT. -/
def results (s : State) (w : Nat) : Option (BitVec 3 × Byte × BitVec 4 × BitVec 4) :=
  (after s w).map fun t => (t.status, t.res, t.count, t.vcount)

/-- The calls that the command word `w` appends to the trace. -/
def calls (s : State) (w : Nat) : Option (List Call) :=
  (after s w).map fun t => t.trace.drop s.trace.length

/-- The state after reset with these bytes from BUF[0] on. -/
def withBuf (bs : List Byte) : State := { State.reset with buf := Memory.writeBytes [] 0 bs }

/-- The state after reset with one portion of received bytes waiting. -/
def withRx (bs : List Byte) : State :=
  { State.reset with chan := { rate := some 19200#32, txq := [], rx := [bs], fe := false } }

/-- The state after reset with the framing-error signal asserted. -/
def withSignal : State :=
  { State.reset with chan := { rate := some 19200#32, txq := [], rx := [], fe := true } }

/-- The state after reset on a channel never opened. -/
def neverOpened : State :=
  { State.reset with chan := { rate := none, txq := [], rx := [], fe := false } }

/-- V-CK-6: the carry out of bit 7 is dropped. -/
theorem test_cksum_drops_carry :
    results (withBuf [0xFF#8, 0x01#8]) 0x0200 = some (0#3, 0xFF#8, 0#4, 0#4) := by decide

/-- V-CK-14: BUF[1] was never written. -/
theorem test_cksum_unwritten :
    exec (.cksum 2#4 0#8) (withBuf [0xFF#8]) = .fault (.bufUnwritten 1) := by rfl

/-- V-VCK-3, V-VCK-7: the two smallest lengths. -/
theorem test_vcksum_short :
    results (withBuf [0xFF#8]) 0x1100 = some (0#3, 1#8, 0#4, 0#4) ∧
    results State.reset 0x1000 = some (4#3, 0#8, 0#4, 0#4) := by decide

/-- V-VCK-9: not the end-around-carry sum. -/
theorem test_vcksum_not_end_around :
    results (withBuf [0xFF#8, 0x01#8, 0xFE#8]) 0x1300 = some (2#3, 0#8, 0#4, 0#4) := by decide

/-- V-GEN-1, V-GEN-14. -/
theorem test_genid :
    results State.reset 0x2001 = some (0#3, 0xC1#8, 0#4, 0#4) ∧
    results State.reset 0x20FF = some (0#3, 0xBF#8, 0#4, 0#4) := by decide

/-- Rows 0x00, 0x18 and 0x38 of section 3 of `95_test_vectors.md`. -/
theorem test_genid_table :
    [0x00#8, 0x01#8, 0x02#8, 0x03#8, 0x04#8, 0x05#8, 0x06#8, 0x07#8].map genIdentifier =
      [0x80#8, 0xC1#8, 0x42#8, 0x03#8, 0xC4#8, 0x85#8, 0x06#8, 0x47#8] ∧
    [0x18#8, 0x19#8, 0x1A#8, 0x1B#8, 0x1C#8, 0x1D#8, 0x1E#8, 0x1F#8].map genIdentifier =
      [0xD8#8, 0x99#8, 0x1A#8, 0x5B#8, 0x9C#8, 0xDD#8, 0x5E#8, 0x1F#8] ∧
    [0x38#8, 0x39#8, 0x3A#8, 0x3B#8, 0x3C#8, 0x3D#8, 0x3E#8, 0x3F#8].map genIdentifier =
      [0x78#8, 0x39#8, 0xBA#8, 0xFB#8, 0x3C#8, 0x7D#8, 0xFE#8, 0xBF#8] := by decide

/-- V-VAL-3: the address agrees, the parity bits differ. -/
theorem test_valid_compares_parity : results State.reset 0x3001 = some (1#3, 0#8, 0#4, 0#4) := by decide

/-- V-SID-1. -/
theorem test_setid : (after State.reset 0xE042).map (·.ident) = some 0x42#8 := by decide

/-- V-BRK-3: half of an odd rate is rounded down. -/
theorem test_break_odd_rate :
    calls { State.reset with baud := 10417#32 } 0x4000 =
      some [.chanOpen 5208#32, .chanWrite 0x00#8, .chanFlush, .chanOpen 10417#32] := by decide

/-- V-BRK-7: a byte queued before may leave at the lowered rate, ahead of the zero byte, or at the rate before. -/
theorem test_break_over_queued_byte :
    (after { State.reset with chan := { rate := some 19200#32, txq := [0xAA#8], rx := [], fe := false } }
        0x4000).map (·.wire) =
      some [{ byte := 0xAA#8, rate := 9600#32 }, { byte := 0x00#8, rate := 9600#32 }] ∧
    (after { State.reset with
          chan := { rate := some 19200#32, txq := [0xAA#8], rx := [], fe := false },
          during := [{ moves := [.send], reset := none }] } 0x4000).map (·.wire) =
      some [{ byte := 0xAA#8, rate := 19200#32 }, { byte := 0x00#8, rate := 9600#32 }] := by decide

/-- V-WBR-1, V-WBR-2: the sample comes before the time test. -/
theorem test_wbreak_zero_timeout :
    results State.reset 0x5000 = some (3#3, 0#8, 0#4, 0#4) ∧
    results withSignal 0x5000 = some (0#3, 1#8, 0#4, 0#4) := by decide

/-- The state after reset with the clock at 100. -/
def atHundred : State := { State.reset with now := 100 }

/-- V-WBR-4: the budget is reached exactly at the second time test. -/
theorem test_wbreak_second_pass :
    (after { State.reset with
        timeout := 100#32, during := [⟨[], none⟩, ⟨[], none⟩, ⟨[.elapse 40], none⟩] } 0x5000).map
      (fun t => (t.waiting, t.now)) = some (some { budget := 100#32, t0 := 0 }, 40) ∧
    waitPass { budget := 100#32, t0 := 0 } atHundred =
      .next (((atHundred.logged (.chanPollFE false)).logged (.timeNow 100)).raise .timeout 0#4) :=
  ⟨by decide, rfl⟩

/-- V-WAK-1, V-WAK-4: no line call, SLPCTL as before. -/
theorem test_wakeup :
    calls { State.reset with baud := 9600#32, slpctl := 0b111#3 } 0x6000 =
      some [.chanOpen 19200#32, .chanWrite 0x00#8, .chanFlush, .chanOpen 9600#32] ∧
    (after { State.reset with slpctl := 0b111#3 } 0x6000).map (·.slpctl) = some 0b111#3 := by decide

/-- V-SLP-1, V-SLP-5. -/
theorem test_sleep_drives_line :
    calls State.reset 0x7001 = some [.lineWrite .high, .delayUs 20] ∧
    (after State.reset 0x7001).map (·.slpctl) = some 0b111#3 ∧
    calls State.reset 0x70FE = some [.lineWrite .low, .delayUs 20] := by decide

/-- V-SLP-7. -/
theorem test_sleep_without_line :
    (after { State.reset with slpctl := 0b000#3 } 0x7001).map (fun t => (t.slpctl, t.trace.length, t.status)) =
      some (0b000#3, 2, 0#3) := by decide

/-- V-WR-1. -/
theorem test_write_frame :
    calls (withBuf [0x01#8, 0x02#8, 0x03#8]) 0x83C1 =
      some [.chanOpen 9600#32, .chanWrite 0x00#8, .chanFlush, .chanOpen 19200#32, .chanWrite 0x55#8,
        .chanWrite 0xC1#8, .chanWrite 0x01#8, .chanWrite 0x02#8, .chanWrite 0x03#8, .chanWrite 0xF9#8] := by
  decide

/-- V-WR-6: refused before BUF is read. -/
theorem test_write_badlen : results State.reset 0x8FC1 = some (5#3, 0#8, 0#4, 0#4) := by decide

/-- V-RQ-2: LEN is ignored. -/
theorem test_wrreq_header :
    calls State.reset 0x9FC1 =
      some [.chanOpen 9600#32, .chanWrite 0x00#8, .chanFlush, .chanOpen 19200#32, .chanWrite 0x55#8,
        .chanWrite 0xC1#8] := by decide

/-- V-RS-1: no open, no flush. -/
theorem test_wrresp :
    calls (withBuf [0x10#8, 0x20#8]) 0xA200 =
      some [.chanWrite 0x10#8, .chanWrite 0x20#8, .chanWrite 0xCF#8] := by decide

/-- V-ST-3: the identifier is IDENT, not ARG, and no checksum follows. -/
theorem test_wrstrm :
    calls (withBuf [0xAA#8, 0xBB#8]) 0xB242 =
      some [.chanOpen 9600#32, .chanWrite 0x00#8, .chanFlush, .chanOpen 19200#32, .chanWrite 0x55#8,
        .chanWrite 0xC1#8, .chanWrite 0xAA#8, .chanWrite 0xBB#8] := by decide

/-- V-READ-2, V-READ-3, both with the default. -/
theorem test_read_checksum :
    results (withRx [0xC1#8, 0x01#8, 0x02#8, 0x03#8, 0x38#8]) 0xC500 = some (0#3, 0#8, 5#4, 5#4) ∧
    results (withRx [0xC1#8, 0x01#8, 0x02#8, 0x03#8, 0xF9#8]) 0xC500 = some (2#3, 0#8, 5#4, 0#4) := by decide

/-- V-READ-3 with the parameter false, V-READ-7: the identifier is tested before the second length test. -/
theorem test_read_order :
    results { withRx [0xC1#8, 0x01#8, 0x02#8, 0x03#8, 0xF9#8] with
      params := { wakeBaud := 19200#32, readCksumIncludesId := false } } 0xC500 = some (0#3, 0#8, 5#4, 5#4) ∧
    results (withRx [0x42#8]) 0xC500 = some (1#3, 0#8, 1#4, 0#4) := by decide

/-- V-RDS-1; BUF[1 ..] as delivered, a byte beyond unchanged. -/
theorem test_rdstrm :
    results (withRx [0x55#8, 0xC1#8]) 0xD200 = some (0#3, 0#8, 2#4, 0#4) ∧
    (after (withRx [0x55#8, 0xC1#8]) 0xD200).map (·.buf) = some [(0, 0x55#8), (1, 0xC1#8)] ∧
    (after (withRx [0x55#8, 0xC1#8]) 0xD200).map (·.chan.rx) = some [] := by decide

/-- V-ILL-2. -/
theorem test_reserved : results State.reset 0xFFFF = some (6#3, 0#8, 0#4, 0#4) := by decide

/-- V-CFG-1, V-CFG-2 and V-REG-1: the two forms of reset. -/
theorem test_reset :
    resetSequence defaultStraps State.reset = State.reset ∧
    (resetSequence { pBaud := 2#32, pIdent := 0x81#8, pHasSlp := false } State.reset).slpctl = 0b000#3 ∧
    (resetSequence { pBaud := 2#32, pIdent := 0x81#8, pHasSlp := false } State.reset).trace = [] := by decide

/-- V-REG-6, V-REG-8: truncation, and the hole. -/
theorem test_regwrite :
    (regWrite 16#5 0x1AB State.reset).buf = [(0, 0xAB#8)] ∧ regWrite 9#5 5 State.reset = State.reset := by decide

/-! ### Witnesses: the hypotheses of each statement are met together -/

/-- A WBREAK in progress from time 0 with budget `b`. -/
def inWait (b : BitVec 32) (agenda : List Machine.Action) : State :=
  { State.reset with timeout := b, waiting := some { budget := b, t0 := 0 }, agenda := agenda }

/-- Eight bytes. -/
def eight : List Byte := [1#8, 2#8, 3#8, 4#8, 5#8, 6#8, 7#8, 8#8]

/-- Fifteen bytes, all that LEN can name. -/
def fifteen : List Byte := eight ++ [9#8, 10#8, 11#8, 12#8, 13#8, 14#8, 15#8]

theorem witness_IgnoredFieldsHaveNoEffect :
    (0x01#8).toNat % 64 = (0xC1#8).toNat % 64 ∧ (0x01#8).toNat % 2 = (0x03#8).toNat % 2 := by decide

theorem witness_StepRunsDecodedCommand :
    let s : State := { State.reset with agenda := [.command 0xF123#16] }
    s.waiting = none ∧ s.agenda = .command 0xF123#16 :: [] := by decide

theorem witness_IdleBlockStays : State.reset.waiting = none ∧ State.reset.agenda = [] := by decide

theorem witness_PortsHeldWhileWaiting :
    (∀ a : List Machine.Action, (inWait 100#32 a).waiting = some { budget := 100#32, t0 := 0 } ∧
      (inWait 100#32 a).noReset ∧ (inWait 100#32 a).channelOpen ∧ (inWait 100#32 a).agenda = a) ∧
    (inWait 100#32 [.command 0#16]).agenda = .command 0#16 :: [] ∧
    (inWait 100#32 [.regRead 4#5]).agenda = .regRead 4#5 :: [] ∧
    (inWait 100#32 [.regWrite 3#5 7]).agenda = .regWrite 3#5 7 :: [] :=
  ⟨fun a => ⟨rfl, (fun _ h => by cases h), rfl, rfl⟩, rfl, rfl, rfl⟩

theorem witness_CksumCompletes :
    (([] : List Byte).length = (0#4).toNat ∧ State.reset.holds []) ∧
    (fifteen.length = (15#4).toNat ∧ (withBuf fifteen).holds fifteen) := by decide

theorem witness_VcksumAcceptsExactlyTheChecksum :
    (([] : List Byte).length + 1 = (1#4).toNat ∧ (withBuf [0xFF#8]).holds ([] ++ [0xFF#8])) ∧
    ((eight ++ [9#8, 10#8, 11#8, 12#8, 13#8, 14#8]).length + 1 = (15#4).toNat ∧
      (withBuf fifteen).holds ((eight ++ [9#8, 10#8, 11#8, 12#8, 13#8, 14#8]) ++ [15#8])) := by decide

theorem witness_ReservedOpcodeIsIllegal :
    (0xF000#16).toNat / 4096 = 15 ∧ (0xF123#16).toNat / 4096 = 15 ∧ (0xFFFF#16).toNat / 4096 = 15 ∧
    (0xEFFF#16).toNat / 4096 ≠ 15 := by decide

theorem witness_BreakCompletes :
    State.reset.noReset ∧ State.reset.chan.txq = [] ∧ neverOpened.noReset := by decide

theorem witness_WakeupCompletes :
    State.reset.noReset ∧ State.reset.chan.txq = [] ∧ neverOpened.noReset := by decide

theorem witness_PulsesHaveTheirLength :
    let lowest : State := { State.reset with
      baud := 2#32, params := { wakeBaud := 18000#32, readCksumIncludesId := true } }
    let highest : State := { State.reset with
      baud := 0xFFFFFFFF#32, params := { wakeBaud := 36000#32, readCksumIncludesId := true } }
    (lowest.noReset ∧ lowest.baudValid ∧ lowest.params.valid) ∧
    (highest.noReset ∧ highest.baudValid ∧ highest.params.valid) := by decide

theorem witness_WbreakMakesItsFirstPass : State.reset.noReset ∧ State.reset.channelOpen := by decide

theorem witness_WbreakInQuietEnvironment :
    (withSignal.during = [] ∧ withSignal.channelOpen ∧ withSignal.chan.fe = true) ∧
    (State.reset.during = [] ∧ State.reset.channelOpen ∧ State.reset.chan.fe = false ∧
      State.reset.timeout = 0#32) ∧
    (∀ b : BitVec 32, ({ State.reset with timeout := b } : State).during = [] ∧
      ({ State.reset with timeout := b } : State).channelOpen ∧
      ({ State.reset with timeout := b } : State).chan.fe = false ∧
      ({ State.reset with timeout := b } : State).timeout = b) ∧
    (1#32 ≠ 0#32 ∧ 1#32 ≠ 0xFFFFFFFF#32 ∧ 0xFFFFFFFE#32 ≠ 0#32 ∧ 0xFFFFFFFE#32 ≠ 0xFFFFFFFF#32) :=
  ⟨by decide, by decide, fun _ => ⟨rfl, rfl, rfl, rfl⟩, by decide⟩

theorem witness_WbreakWithZeroTimeoutEnds :
    State.reset.noReset ∧ State.reset.channelOpen ∧ State.reset.timeout = 0#32 := by decide

theorem witness_UnlimitedWaitHangs :
    let s := inWait 0xFFFFFFFF#32 []
    let m := { inWait 0xFFFFFFFF#32 [.move (.elapse 9), .move .send, .move (.signal false), .command 0#16] with
      during := [⟨[.elapse 1, .receive [7#8], .signal false], none⟩] }
    (s.waiting = some { budget := 0xFFFFFFFF#32, t0 := 0 } ∧ s.agenda = [] ∧ s.during = [] ∧
      s.chan.fe = false ∧ s.channelOpen) ∧
    m.waiting = some { budget := 0xFFFFFFFF#32, t0 := 0 } ∧ m.chan.fe = false ∧ m.channelOpen ∧ m.noReset ∧
    (∀ g ∈ m.during, Move.signal true ∉ g.moves) ∧
    ∀ a ∈ m.agenda, a ≠ .move (.signal true) ∧ (∀ st, a ≠ .reset st) ∧ ∀ r, a ≠ .openChannel r := by
  refine ⟨by decide, by decide, by decide, by decide, by decide, by decide, ?_⟩
  simp [inWait]

theorem witness_SleepDrivesLine :
    State.reset.noReset ∧ hasSlp State.reset.slpctl = true ∧ slpOe State.reset.slpctl = true := by decide

theorem witness_SleepWithoutLineMakesNoCall :
    hasSlp ({ State.reset with slpctl := 0b000#3 } : State).slpctl = false := by decide

theorem witness_SleepIsIdempotent :
    State.reset.noReset ∧ (∃ t, exec (.sleep 0#4 1#8) State.reset = .next t) ∧
    ∃ t, exec (.sleep 0#4 1#8) ({ State.reset with slpctl := 0b000#3 } : State) = .next t :=
  ⟨by decide, ⟨_, rfl⟩, ⟨_, rfl⟩⟩

theorem witness_NoLineCallWithoutLine :
    let s : State := { State.reset with slpctl := 0b000#3 }
    let w : State := { inWait 100#32 [] with slpctl := 0b000#3 }
    let st : Straps := { pBaud := 2#32, pIdent := 0#8, pHasSlp := false }
    let r : State := { State.reset with agenda := [.reset st] }
    (hasSlp s.slpctl = false ∧ s.noReset ∧ ∃ t, exec (.brk 0#4 0#8) s = .next t) ∧
    (∀ a ∈ [[], [.command 0x7001#16], [.regRead 4#5], [.regWrite 3#5 7], [.move (.elapse 1)]],
      let v : State := { w with agenda := a }
      hasSlp v.slpctl = false ∧ v.noReset ∧ v.waiting = some { budget := 100#32, t0 := 0 } ∧
      (∀ st rest, v.agenda ≠ .reset st :: rest) ∧ ∃ t, step v = .next t) ∧
    (r.agenda = .reset st :: [] ∧ st.pHasSlp = false ∧ ∃ t, step r = .next t) :=
  ⟨⟨by decide, by decide, ⟨_, rfl⟩⟩, by
    intro a ha
    simp only [List.mem_cons, List.not_mem_nil, or_false] at ha
    rcases ha with rfl | rfl | rfl | rfl | rfl <;>
      exact ⟨by decide, by decide, by decide, by simp, ⟨_, rfl⟩⟩,
    ⟨by decide, by decide, ⟨_, rfl⟩⟩⟩

theorem witness_WriteCompletes :
    (State.reset.noReset ∧ (0#4).toNat ≤ 8 ∧ ([] : List Byte).length = (0#4).toNat ∧ State.reset.holds []) ∧
    ((withBuf eight).noReset ∧ (8#4).toNat ≤ 8 ∧ eight.length = (8#4).toNat ∧
      (withBuf eight).holds eight) := by decide

theorem witness_WrreqCompletes : State.reset.noReset := by decide

theorem witness_WrrespCompletes :
    (State.reset.noReset ∧ State.reset.channelOpen ∧ (0#4).toNat ≤ 8 ∧
      ([] : List Byte).length = (0#4).toNat ∧ State.reset.holds []) ∧
    ((withBuf eight).noReset ∧ (withBuf eight).channelOpen ∧ (8#4).toNat ≤ 8 ∧
      eight.length = (8#4).toNat ∧ (withBuf eight).holds eight) := by decide

theorem witness_WrstrmCompletes :
    (State.reset.noReset ∧ (0#4).toNat ≤ 8 ∧ ([] : List Byte).length = (0#4).toNat ∧ State.reset.holds []) ∧
    ((withBuf eight).noReset ∧ (8#4).toNat ≤ 8 ∧ eight.length = (8#4).toNat ∧
      (withBuf eight).holds eight) := by decide

theorem witness_FramesOnTheWire :
    (State.reset.noReset ∧ State.reset.chan.txq = [] ∧ (0#4).toNat ≤ 8 ∧
      ([] : List Byte).length = (0#4).toNat ∧ State.reset.holds []) ∧
    ((withBuf eight).noReset ∧ (withBuf eight).chan.txq = [] ∧ (8#4).toNat ≤ 8 ∧
      eight.length = (8#4).toNat ∧ (withBuf eight).holds eight) := by decide

theorem witness_TooLongPayloadIsRefused : 8 < (9#4).toNat ∧ 8 < (15#4).toNat := by decide

/-- The bytes a READ of five takes from one waiting portion. -/
def readFive (bs : List Byte) : Option (List Call) := calls (withRx bs) 0xC500

/-- Each clause of ReadCompletes: nothing read, a wrong first byte, one byte, a right checksum, a wrong one. -/
theorem witness_ReadCompletes :
    ((withRx []).noReset ∧ (withRx []).channelOpen ∧ (withRx []).during = []) ∧
    readFive [] = some [.chanRead 5 []] ∧
    readFive [0x42#8] = some [.chanRead 5 [0x42#8]] ∧
    readFive [0xC1#8] = some [.chanRead 5 [0xC1#8]] ∧
    readFive [0xC1#8, 0x3E#8] = some [.chanRead 5 (0xC1#8 :: ([] ++ [0x3E#8]))] ∧
    checksum [0xC1#8] = 0x3E#8 ∧ checksum [0xC1#8] ≠ 0xFF#8 ∧ checksum [] = 0xFF#8 ∧
    readFive [0xC1#8, 1#8, 2#8, 3#8, 0x38#8, 4#8] =
      some [.chanRead 5 (0xC1#8 :: ([1#8, 2#8, 3#8] ++ [0x38#8]))] := by decide

theorem witness_RdstrmCompletes :
    (withRx eight).noReset ∧ (withRx eight).channelOpen ∧ (withRx eight).during = [] := by decide

theorem witness_ReadOfWrittenFrame :
    let s := withRx (0xC1#8 :: ([1#8] ++ [checksum [1#8]]))
    let z : State := { withRx (0x00#8 :: ([] ++ [checksum []])) with ident := 0x00#8 }
    (s.during = [] ∧ s.channelOpen ∧ [1#8].length + 2 ≤ (3#4).toNat ∧
      s.chan.rx = (s.ident :: ([1#8] ++ [checksum [1#8]])) :: []) ∧
    (z.during = [] ∧ z.channelOpen ∧ ([] : List Byte).length + 2 ≤ (2#4).toNat ∧
      z.chan.rx = (z.ident :: ([] ++ [checksum []])) :: []) := by decide

theorem witness_UnwrittenByteFaults :
    (∃ t, step ({ State.reset with agenda := [.reset defaultStraps] } : State) = .next t) ∧
    (0 < (15#4).toNat ∧ State.reset.buf.readByte 0 = none) ∧
    (7 < (8#4).toNat ∧ (withBuf (eight.take 7)).buf.readByte 7 = none ∧
      (∀ j, j < 7 → ((withBuf (eight.take 7)).buf.readByte j).isSome = true) ∧ (8#4).toNat ≤ 8) :=
  ⟨⟨_, rfl⟩, by decide, by decide⟩

theorem witness_ClosedChannelIsRefused :
    (neverOpened.noReset ∧ neverOpened.chan.rate = none ∧ (0#4).toNat ≤ 8 ∧
      ([] : List Byte).length = (0#4).toNat ∧ neverOpened.holds []) ∧
    let s : State := { neverOpened with buf := Memory.writeBytes [] 0 eight }
    s.noReset ∧ s.chan.rate = none ∧ (8#4).toNat ≤ 8 ∧ eight.length = (8#4).toNat ∧ s.holds eight := by decide

theorem witness_ResetSequenceValues :
    let st : Straps := { pBaud := 2#32, pIdent := 0#8, pHasSlp := false }
    (({ State.reset with agenda := [.reset defaultStraps] } : State).agenda = .reset defaultStraps :: [] ∧
      defaultStraps.valid ∧ defaultStraps.pHasSlp = true) ∧
    ((inWait 0xFFFFFFFF#32 [.reset st]).agenda = .reset st :: [] ∧ st.valid ∧ st.pHasSlp = false) := by decide

theorem witness_ResetStateIsAfterReset :
    let s : State := { State.reset with agenda := [.reset defaultStraps], baud := 0#32, status := 7#3 }
    s.agenda = [.reset defaultStraps] ∧ s.wire = [] ∧ s.now = 0 ∧ s.during = [] ∧ s.portOut = [] ∧
    s.params = defaultParams ∧
    s.chan = { rate := some 19200#32, txq := [], rx := [], fe := false } := by decide

theorem witness_BadStrapsAreRefused :
    let one : Straps := { pBaud := 1#32, pIdent := 0#8, pHasSlp := true }
    let zero : Straps := { pBaud := 0#32, pIdent := 0#8, pHasSlp := false }
    (({ State.reset with agenda := [.reset one] } : State).agenda = .reset one :: [] ∧ one.pBaud.toNat < 2) ∧
    (({ State.reset with agenda := [.reset zero] } : State).agenda = .reset zero :: [] ∧
      zero.pBaud.toNat < 2) := by decide

/-- A reset before the third call of the next command. -/
def resetBeforeThirdCall : State :=
  { State.reset with
    during := [⟨[], none⟩, ⟨[.send], none⟩, ⟨[.elapse 1], some defaultStraps⟩] }

theorem witness_ResetAbandonsBreak :
    resetBeforeThirdCall.during = ⟨[], none⟩ :: ⟨[.send], none⟩ :: ⟨[.elapse 1], some defaultStraps⟩ :: [] ∧
    (⟨[.elapse 1], some defaultStraps⟩ : Gap).reset = some defaultStraps ∧ defaultStraps.valid := by decide

theorem witness_CommandRunsOrIsAbandoned :
    (∃ t, exec (.brk 0#4 0#8) State.reset = .next t) ∧
    ∃ t, exec (.brk 0#4 0#8) resetBeforeThirdCall = .next t := ⟨⟨_, rfl⟩, ⟨_, rfl⟩⟩

theorem witness_CommandsEndWithTheirStatuses :
    (State.reset.noReset ∧ ∃ t, exec (.valid 0#4 0#8) State.reset = .next t ∧ t.waiting = none) ∧
    let s : State := { State.reset with timeout := 0xFFFFFFFF#32 }
    s.noReset ∧ ∃ t, exec (.wbreak 0#4 0#8) s = .next t ∧ t.waiting ≠ none :=
  ⟨⟨by decide, ⟨_, rfl, rfl⟩⟩, by decide, ⟨_, rfl, by decide⟩⟩

theorem witness_OnlyTheNamedCommandsWrite :
    State.reset.noReset ∧ ∃ t, exec (.brk 0#4 0#8) State.reset = .next t := ⟨by decide, ⟨_, rfl⟩⟩

/-- Asleep, with a reset before the first call of the next command. -/
def asleepResetInside : State :=
  { State.reset with slpctl := 0b111#3, line := { mode := some .output, level := some .high },
                     during := [⟨[], some defaultStraps⟩] }

theorem witness_OnlySleepAndResetMoveTransceiver :
    (∃ t, step (State.reset.withFetchWord 16 0x7001) = .next t ∧
      t.transceiver ≠ (State.reset.withFetchWord 16 0x7001).transceiver) ∧
    ∃ t, step (asleepResetInside.withFetchWord 16 0x4000) = .next t ∧
      t.transceiver ≠ (asleepResetInside.withFetchWord 16 0x4000).transceiver :=
  ⟨⟨_, rfl, by decide⟩, ⟨_, rfl, by decide⟩⟩

theorem witness_ResultRegistersAreNotRead :
    (∃ t, exec (.rdstrm 1#4 0#8) State.reset = .next t ∧ t.waiting = none) ∧
    (∃ t, exec (.wbreak 0#4 0#8) ({ State.reset with timeout := 1#32 } : State) = .next t ∧ t.waiting ≠ none) ∧
    exec (.cksum 1#4 0#8) State.reset = .fault (.bufUnwritten 0) ∧
    exec (.read 1#4 0#8) neverOpened = .refused .channelNotOpen :=
  ⟨⟨_, rfl, rfl⟩, ⟨_, rfl, by decide⟩, rfl, rfl⟩

theorem witness_BytesLeaveInQueueOrder :
    (withBuf eight).noReset ∧ ∃ t, exec (.write 8#4 0xC1#8) (withBuf eight) = .next t := ⟨by decide, ⟨_, rfl⟩⟩

theorem witness_EveryStepKeepsInvariant :
    let s := State.reset.withFetchWord 16 0x90C1
    s.Inv ∧ ∃ t, step (State.reset.withFetchWord 16 0x90C1) = .next t :=
  ⟨⟨by decide, by decide, by decide, by decide, by decide, (fun _ h => nomatch h), by decide, by decide⟩,
    ⟨_, rfl⟩⟩

/-- The first and last register of each clause of RegReadReturnsRegister. -/
theorem witness_RegReadReturnsRegister :
    (∀ n : BitVec 5, ({ withBuf [0xAB#8] with agenda := [.regRead n] } : State).waiting = none ∧
      ({ withBuf [0xAB#8] with agenda := [.regRead n] } : State).agenda = .regRead n :: []) ∧
    (8 ≤ (8#5).toNat ∧ (8#5).toNat < 16 ∧ 8 ≤ (15#5).toNat ∧ (15#5).toNat < 16) ∧
    (16 ≤ (16#5).toNat ∧ (withBuf [0xAB#8]).buf.readByte ((16#5).toNat - 16) = some 0xAB#8) ∧
    (16 ≤ (31#5).toNat ∧ (withBuf [0xAB#8]).buf.readByte ((31#5).toNat - 16) = none) :=
  ⟨fun _ => ⟨rfl, rfl⟩, by decide, by decide, by decide⟩

theorem witness_RegWriteWritesTimeoutAndBuf :
    (∀ n : BitVec 5, ({ State.reset with agenda := [.regWrite n 0x1AB] } : State).waiting = none ∧
      ({ State.reset with agenda := [.regWrite n 0x1AB] } : State).agenda = .regWrite n 0x1AB :: []) ∧
    (16 ≤ (16#5).toNat ∧ 16 ≤ (31#5).toNat) ∧
    (0#5 ≠ 3#5 ∧ (0#5).toNat < 16 ∧ 15#5 ≠ 3#5 ∧ (15#5).toNat < 16) :=
  ⟨fun _ => ⟨rfl, rfl⟩, by decide, by decide⟩

theorem witness_AdapterSendsHeadAtCurrentRate :
    let s : State := { State.reset with
      agenda := [.move .send], chan := { rate := some 9600#32, txq := [0xAA#8], rx := [], fe := false } }
    s.agenda = .move .send :: [] ∧ s.chan.rate = some 9600#32 ∧ s.chan.txq = 0xAA#8 :: [] := by decide

theorem witness_OwnerOpensChannelBetweenCommands :
    let s : State := { neverOpened with agenda := [.openChannel 19200#32] }
    (s.agenda = .openChannel 19200#32 :: [] ∧ s.waiting = none) ∧
    ((inWait 100#32 [.openChannel 19200#32]).agenda = .openChannel 19200#32 :: [] ∧
      (inWait 100#32 [.openChannel 19200#32]).waiting ≠ none) := by decide

end Sys2Proof.Tests
end

/-! Proofs of the statements about the state (`10_state.md`). -/

namespace Sys2Proof.Machine

open Sys2Proof.Config

/-! ### What a step is, by what stands first on the agenda -/

/-- With the ports free the word presented is decoded and performed (`10_state.md` R28). -/
theorem step_command {s : State} {w : CmdWord} {rest : List Action} (hw : s.waiting = none)
    (ha : s.agenda = .command w :: rest) : step s = exec (decodeWord w) { s with agenda := rest } := by
  simp only [step, nextCommand, hw, ha]

/-- Where the block does not accept a command, another agent has its turn. -/
theorem step_other {s : State} (h : nextCommand s = none) : step s = otherTurn s := by
  simp only [step, h]

/-- A command in progress holds the command port (`10_state.md` R29). -/
theorem nextCommand_of_waiting {s : State} {w : Wait} (hw : s.waiting = some w) :
    nextCommand s = none := by
  simp only [nextCommand, hw]

/-- Nothing is accepted where no word is presented. -/
theorem nextCommand_of_agenda {s : State} (h : ∀ w rest, s.agenda ≠ .command w :: rest) :
    nextCommand s = none := by
  unfold nextCommand
  split
  · next w rest _ ha => exact absurd ha (h w rest)
  · rfl

theorem step_nil {s : State} (ha : s.agenda = []) : step s = blockTurn s := by
  rw [step_other (nextCommand_of_agenda (by simp [ha]))]
  simp only [otherTurn, ha]

theorem step_command_of_waiting {s : State} {v : Wait} {w : CmdWord} {rest : List Action}
    (hw : s.waiting = some v) (ha : s.agenda = .command w :: rest) : step s = blockTurn s := by
  rw [step_other (nextCommand_of_waiting hw)]
  simp only [otherTurn, ha]

theorem step_regRead {s : State} {n : BitVec 5} {rest : List Action}
    (ha : s.agenda = .regRead n :: rest) :
    step s = portTurn s (regRead n { s with agenda := rest }) := by
  rw [step_other (nextCommand_of_agenda (by simp [ha]))]
  simp only [otherTurn, ha]

theorem step_regWrite {s : State} {n : BitVec 5} {v : Nat} {rest : List Action}
    (ha : s.agenda = .regWrite n v :: rest) :
    step s = portTurn s (.next (regWrite n v { s with agenda := rest })) := by
  rw [step_other (nextCommand_of_agenda (by simp [ha]))]
  simp only [otherTurn, ha]

theorem step_reset {s : State} {st : Straps} {rest : List Action} (ha : s.agenda = .reset st :: rest) :
    step s = applyReset st { s with agenda := rest } := by
  rw [step_other (nextCommand_of_agenda (by simp [ha]))]
  simp only [otherTurn, ha]

/-- The owner's open, between commands (`70_reset_and_hazards.md` R232). -/
theorem step_openChannel {s : State} {r : Rate} {rest : List Action} (hw : s.waiting = none)
    (ha : s.agenda = .openChannel r :: rest) :
    step s = .next { s with agenda := rest, chan := { s.chan with rate := some r } } := by
  rw [step_other (nextCommand_of_agenda (by simp [ha]))]
  simp only [otherTurn, ha, hw]

theorem step_openChannel_of_waiting {s : State} {w : Wait} {r : Rate} {rest : List Action}
    (hw : s.waiting = some w) (ha : s.agenda = .openChannel r :: rest) :
    step s = .refused .channelShared := by
  rw [step_other (nextCommand_of_agenda (by simp [ha]))]
  simp only [otherTurn, ha, hw]

theorem step_move {s : State} {m : Move} {rest : List Action} (ha : s.agenda = .move m :: rest) :
    step s = .next (applyMove m { s with agenda := rest }) := by
  rw [step_other (nextCommand_of_agenda (by simp [ha]))]
  simp only [otherTurn, ha]

/-! ### The block's own turn and the register port -/

theorem blockTurn_of_waiting {s : State} {w : Wait} (hw : s.waiting = some w) :
    blockTurn s = waitPass w s := by
  simp only [blockTurn, hw]

theorem blockTurn_of_free {s : State} (hw : s.waiting = none) : blockTurn s = .next s := by
  simp only [blockTurn, hw]

theorem portTurn_of_waiting {s : State} {w : Wait} (hw : s.waiting = some w) (o : Out) :
    portTurn s o = waitPass w s := by
  simp only [portTurn, hw]

theorem portTurn_of_free {s : State} (hw : s.waiting = none) (o : Out) : portTurn s o = o := by
  simp only [portTurn, hw]

/-! ### The invariant through the calls of a command -/

/-- The invariant is its clauses on the registers and the channel, and its clause on a WBREAK in progress. -/
theorem State.inv_iff {s : State} : s.Inv ↔ s.Quiet ∧ s.waitLegal :=
  ⟨fun ⟨hb, hr, hc, hl, hs, hw, hq, hp⟩ => ⟨⟨hb, hr, hc, hl, hs, hq, hp⟩, hw⟩,
    fun ⟨⟨hb, hr, hc, hl, hs, hq, hp⟩, hw⟩ => ⟨hb, hr, hc, hl, hs, hw, hq, hp⟩⟩

theorem State.Inv.quiet {s : State} (h : s.Inv) : s.Quiet := (State.inv_iff.1 h).1

/-- Between commands the clause on a WBREAK in progress holds. -/
theorem State.Quiet.inv {s : State} (h : s.Quiet) (hw : s.waiting = none) : s.Inv :=
  State.inv_iff.2 ⟨h, fun _ e => nomatch hw.symm.trans e⟩

theorem State.Quiet.setIdent {s : State} (h : s.Quiet) (b : Byte) : (s.setIdent b).Quiet :=
  ⟨h.buf, h.baud, h.slpctl, h.line, h.results, h.queue, h.params⟩

/-- The end of a command with VCOUNT as `10_state.md` R21 says: 0, or COUNT after ST_OK. -/
theorem State.Quiet.endedWith {s : State} (h : s.Quiet) {st : Status} {c v : BitVec 4}
    (hv : v = 0#4 ∨ st = .ok ∧ v = c) (res : Byte) : (s.endCommand st res c v).Inv := by
  refine State.Quiet.inv ⟨h.buf, h.baud, h.slpctl, h.line, ⟨st.code_ne_seven, ?_, fun hs => ?_⟩,
    h.queue, h.params⟩ rfl
  · exact hv.imp_right And.right
  · rcases hv with hv | ⟨rfl, _⟩
    · exact hv
    · exact absurd rfl hs

/-- A property of the state besides a stable one, kept by the environment's moves, consumed gaps and calls. -/
theorem Stable.and {P Q : State → Prop} (hP : Stable P) (hm : ∀ m s, Q s → Q (applyMove m s))
    (hd : ∀ d s, Q s → Q { s with during := d }) (hl : ∀ c s, Q s → Q (s.logged c)) :
    Stable fun s => P s ∧ Q s where
  move m s h := ⟨hP.move m s h.1, hm m s h.2⟩
  during d s h := ⟨hP.during d s h.1, hd d s h.2⟩
  log c s h := ⟨hP.log c s h.1, hl c s h.2⟩
  enough s h := hP.enough s h.1

/-- The calls that only log keep every stable property. -/
theorem delayUs_keeps {P : State → Prop} (hP : Stable P) {s : State} (n : Nat) (h : P s) :
    (delayUs n s).Keeps P :=
  (enterCall_keeps hP h).bind fun _ _ h => hP.log _ _ h

/-- A sample of the framing-error signal is taken on an open channel only (`20_memory.md` R49). -/
theorem chanPollFE_keeps {P : State → Prop} (hP : Stable P) {s : State} (h : P s) :
    (chanPollFE s).Keeps fun u => P u ∧ u.channelOpen :=
  (enterCall_keeps hP h).bind fun _ _ h => needRate_keeps fun _ hr =>
    ⟨hP.log _ _ h, Option.isSome_of_mem hr⟩

/-- What follows a clock reading may use that the value read is the clock (`20_memory.md` R53). -/
theorem timeNow_finish {P : State → Prop} (hP : Stable P) {s t : State} {k : Nat → State → Out} (h : P s)
    (hk : ∀ u, P u → k u.now u = .next t → t.Inv) (e : (timeNow s).finish k = .next t) : t.Inv := by
  have hc := enterCall_keeps hP h
  unfold timeNow at e
  cases he : enterCall s with
  | going a u => rw [he] at hc e; exact hk (u.logged _) (hP.log _ _ hc) e
  | halted o => rw [he] at hc e; exact hc t e

/-- What follows a read may use the bound on the number of bytes (`20_memory.md` R46). -/
theorem chanRead_finish {n : Nat} {s t : State} {k : List Byte → State → Out} (h : s.Quiet)
    (hk : ∀ bytes u, u.Quiet → bytes.length ≤ n → k bytes u = .next t → t.Inv)
    (e : (chanRead n s).finish k = .next t) : t.Inv := by
  have hc := enterCall_keeps State.Quiet.stable h
  unfold chanRead at e
  cases he : enterCall s with
  | halted o => rw [he] at hc e; exact hc t e
  | going a u =>
    rw [he] at hc e
    cases hr : u.chan.rate with
    | none => rw [Run.bind_going, needRate_none hr] at e; cases e
    | some r =>
      rw [Run.bind_going, needRate_some hr] at e
      refine hk _ _ (State.Quiet.stable.log _ _ ?_) (rxAnswer_length n u.chan.rx) e
      exact ⟨hc.buf, hc.baud, hc.slpctl, hc.line, hc.results, hc.queue, hc.params⟩

theorem pulse_keeps {s : State} (lowered normal : Rate) (h : s.Quiet) :
    (pulse lowered normal s).Keeps State.Quiet :=
  (chanOpen_keeps lowered h).bind fun _ _ h => (chanWrite_keeps breakByte h).bind fun _ _ h =>
    (chanFlush_keeps h).bind fun _ _ h => chanOpen_keeps normal h

theorem sendHeader_keeps {s : State} (id : Byte) (h : s.Quiet) : (sendHeader id s).Keeps State.Quiet :=
  (pulse_keeps _ _ h).bind fun _ _ h => (chanWrite_keeps sync h).bind fun _ _ h => chanWrite_keeps id h

/-- SLPCTL and the line change together: with a control line driven to the level of `b`, the state whose
SLP_LEVEL is `b` has the line agree (`20_memory.md` R51). -/
theorem lineWrite_keeps {s : State} (b : Bool) (h : s.Quiet) (hs : hasSlp s.slpctl = true) :
    (lineWrite (levelOf b) s).Keeps fun u => (u.setSlpLevel b).Quiet := by
  have hP : Stable fun u : State => u.Quiet ∧ hasSlp u.slpctl = true :=
    State.Quiet.stable.and
      (fun m u hu => by rw [(applyMove_drift m u).frame]; exact hu) (fun _ _ hu => hu) (fun _ _ hu => hu)
  refine (enterCall_keeps hP ⟨h, hs⟩).bind fun _ u ⟨hq, hu⟩ => ?_
  obtain ⟨hlev, hoe, hhas, _⟩ := withSlpLevel_fields u.slpctl b
  have hhas' : hasSlp (withSlpLevel u.slpctl b) = true := hhas.trans hu
  refine ⟨hq.buf, hq.baud, ⟨?_, fun hn => ?_⟩, fun _ => ⟨(hq.line hu).1, ?_⟩, hq.results, hq.queue, hq.params⟩
  · exact hoe.trans (hq.slpctl.1.trans hhas.symm)
  · exact absurd (hhas'.symm.trans hn) (by decide)
  · exact congrArg (fun l => some (levelOf l)) hlev.symm

theorem driveLine_keeps {s : State} (b : Bool) (h : s.Quiet) (hs : hasSlp s.slpctl = true) :
    (driveLine b s).Keeps State.Quiet :=
  (lineWrite_keeps b h hs).bind fun _ _ h => delayUs_keeps State.Quiet.stable tSettle h

/-- A command that ends when its calls are made, with COUNT = 0. -/
theorem Run.Keeps.finish_ended {α : Type} {r : Run α} {t : State} {st : Status} {res : Byte}
    (h : r.Keeps State.Quiet) (e : (r.finish fun _ s => .next (s.endCommand st res 0#4 0#4)) = .next t) :
    t.Inv :=
  h.finish (fun _ u hu e => by cases e; exact hu.ended st res) e

/-! ### A pass of WBREAK's loop -/

/-- The locals of a WBREAK between its calls: T is TIMEOUT and t0 is past (`41_bus_signaling.md` R124). -/
def State.localsLegal (w : Wait) (s : State) : Prop := w.budget = s.timeout ∧ w.t0 ≤ s.now

theorem State.localsLegal_applyMove {w : Wait} (m : Move) {s : State} (h : s.localsLegal w) :
    (applyMove m s).localsLegal w := by
  have d := applyMove_drift m s
  exact ⟨h.1.trans (congrArg State.timeout d.frame).symm, Nat.le_trans h.2 d.now⟩

theorem State.localsLegal_stable (w : Wait) : Stable fun s => s.Quiet ∧ s.localsLegal w :=
  State.Quiet.stable.and (fun m _ h => State.localsLegal_applyMove m h) (fun _ _ h => h) (fun _ _ h => h)

/-- A WBREAK that stays in progress on an open channel has its clause of the invariant. -/
theorem State.Quiet.keepWaiting {s : State} {w : Wait} (h : s.Quiet) (hl : s.localsLegal w)
    (ho : s.channelOpen) : (s.keepWaiting w).Inv :=
  State.inv_iff.2 ⟨⟨h.buf, h.baud, h.slpctl, h.line, h.results, h.queue, h.params⟩,
    fun _ e => by cases e; exact ⟨hl.1, hl.2, ho⟩⟩

theorem waitTimeTest_inv {w : Wait} {s t : State} (h : s.Quiet) (hl : s.localsLegal w) (ho : s.channelOpen)
    (e : waitTimeTest w s = .next t) : t.Inv := by
  have hP := (State.localsLegal_stable w).and (Q := State.channelOpen)
    (fun m u hu => (congrArg Option.isSome (applyMove_drift m u).rate).trans hu)
    (fun _ _ hu => hu) (fun _ _ hu => hu)
  unfold waitTimeTest at e
  split at e
  · cases e; exact h.keepWaiting hl ho
  · refine timeNow_finish hP ⟨⟨h, hl⟩, ho⟩ (fun u ⟨⟨hu, hlu⟩, hou⟩ e => ?_) e
    split at e
    · cases e; exact hu.ended .timeout 0#8
    · cases e; exact hu.keepWaiting hlu hou

theorem waitPass_inv {w : Wait} {s t : State} (h : s.Quiet) (hl : s.localsLegal w)
    (e : waitPass w s = .next t) : t.Inv := by
  refine (chanPollFE_keeps (State.localsLegal_stable w) ⟨h, hl⟩).finish (fun fe u ⟨⟨hu, hlu⟩, hou⟩ e => ?_) e
  cases fe with
  | true => cases e; exact hu.ended .ok (boolRes true)
  | false => exact waitTimeTest_inv hu hlu hou e

/-! ### The invariant through every command -/

/-- What READ writes into the result registers: VCOUNT is COUNT when all tests pass, else 0 (`10_state.md`
R21, `43_frame_operations.md` R166). -/
theorem judgeRead_ended (bytes : List Byte) (s : State) :
    ∃ st v, judgeRead bytes s = s.endCommand st 0#8 (countOf bytes) v ∧
      (v = 0#4 ∨ st = .ok ∧ v = countOf bytes) := by
  unfold judgeRead
  split
  · exact ⟨.short, _, rfl, .inl rfl⟩
  · split
    · split
      · exact ⟨.short, _, rfl, .inl rfl⟩
      · split
        · exact ⟨.ok, _, rfl, .inr ⟨rfl, rfl⟩⟩
        · exact ⟨.checksum, _, rfl, .inl rfl⟩
    · exact ⟨.ident, _, rfl, .inl rfl⟩

/-- The bytes of one read fit into BUF: LEN is at most 15 (`43_frame_operations.md` R176). -/
theorem State.Quiet.storeRead {s : State} (h : s.Quiet) {len : BitVec 4} {bytes : List Byte}
    (hl : bytes.length ≤ len.toNat) : (storeRead bytes s).Quiet :=
  ⟨Memory.writeBytes_wf (by have := len.isLt; simp only [bufCap]; omega) h.buf, h.baud, h.slpctl, h.line,
    h.results, h.queue, h.params⟩

/-- A command that reads a payload keeps the invariant when it does so with the payload at hand. -/
theorem withPayload_inv {len : BitVec 4} {s t : State} {k : List Byte → Out}
    (hk : ∀ p, k p = .next t → t.Inv) (e : withPayload len s k = .next t) : t.Inv := by
  obtain ⟨p, _, _, hp⟩ := withPayload_next e
  exact hk p hp

section Commands

variable {s t : State} (h : s.Quiet)
include h

theorem execCksum_inv {len : BitVec 4} (e : execCksum len s = .next t) : t.Inv :=
  withPayload_inv (fun p e => by cases e; exact h.ended .ok (checksum p)) e

theorem execVcksum_inv {len : BitVec 4} (e : execVcksum len s = .next t) : t.Inv := by
  unfold execVcksum at e
  split at e
  · cases e; exact h.ended .short 0#8
  · refine withPayload_inv (fun p e => ?_) e
    split at e
    · cases e; exact h.ended .short 0#8
    · cases e; exact h.ended .ok (boolRes true)
    · cases e; exact h.ended .checksum 0#8

theorem execValid_inv {arg : Byte} (e : execValid arg s = .next t) : t.Inv := by
  unfold execValid at e
  split at e
  · cases e; exact h.ended .ok (boolRes true)
  · cases e; exact h.ended .ident 0#8

theorem execWbreak_inv (e : execWbreak s = .next t) : t.Inv :=
  timeNow_finish State.Quiet.stable h (fun _ hu e => waitPass_inv hu ⟨rfl, Nat.le_refl _⟩ e) e

theorem execSleep_inv {arg : Byte} (e : execSleep arg s = .next t) : t.Inv := by
  unfold execSleep at e
  split at e
  · next hs => exact (driveLine_keeps (enterSleep arg) h hs).finish_ended e
  · cases e; exact h.ended .ok 0#8

theorem execWrite_inv {len : BitVec 4} {arg : Byte} (e : execWrite len arg s = .next t) : t.Inv := by
  unfold execWrite at e
  split at e
  · cases e; exact h.ended .badLen 0#8
  · exact withPayload_inv (fun p e =>
      ((sendHeader_keeps arg h).bind fun _ _ h => chanWrites_keeps (p ++ [checksum p]) h).finish_ended e) e

theorem execWrresp_inv {len : BitVec 4} (e : execWrresp len s = .next t) : t.Inv := by
  unfold execWrresp at e
  split at e
  · cases e; exact h.ended .badLen 0#8
  · exact withPayload_inv (fun p e => (chanWrites_keeps (p ++ [checksum p]) h).finish_ended e) e

theorem execWrstrm_inv {len : BitVec 4} (e : execWrstrm len s = .next t) : t.Inv := by
  unfold execWrstrm at e
  split at e
  · cases e; exact h.ended .badLen 0#8
  · exact withPayload_inv (fun p e =>
      ((sendHeader_keeps s.ident h).bind fun _ _ h => chanWrites_keeps p h).finish_ended e) e

theorem execRead_inv {len : BitVec 4} (e : execRead len s = .next t) : t.Inv := by
  refine chanRead_finish h (fun bytes u hu hl e => ?_) e
  obtain ⟨st, v, hj, hv⟩ := judgeRead_ended bytes (storeRead bytes u)
  rw [hj] at e
  cases e
  exact (hu.storeRead hl).endedWith hv 0#8

theorem execRdstrm_inv {len : BitVec 4} (e : execRdstrm len s = .next t) : t.Inv := by
  refine chanRead_finish h (fun bytes u hu hl e => ?_) e
  cases e
  exact (hu.storeRead hl).endedWith (.inl rfl) 0#8

/-- Every command, from every state between commands, keeps the invariant. -/
theorem exec_inv {i : Instr} (e : exec i s = .next t) : t.Inv := by
  cases i with
  | cksum => exact execCksum_inv h e
  | vcksum => exact execVcksum_inv h e
  | genid _ arg => cases e; exact h.ended .ok (genIdentifier arg)
  | valid => exact execValid_inv h e
  | brk => exact (pulse_keeps _ _ h).finish_ended e
  | wbreak => exact execWbreak_inv h e
  | wakeup => exact (pulse_keeps _ _ h).finish_ended e
  | sleep => exact execSleep_inv h e
  | write => exact execWrite_inv h e
  | wrreq _ arg => exact (sendHeader_keeps arg h).finish_ended e
  | wrresp => exact execWrresp_inv h e
  | wrstrm => exact execWrstrm_inv h e
  | read => exact execRead_inv h e
  | rdstrm => exact execRdstrm_inv h e
  | setid _ arg => cases e; exact (h.setIdent arg).ended .ok 0#8
  | reservedF => cases e; exact h.ended .illegal 0#8

end Commands

/-! ### The invariant through every step -/

/-- A turn of the block while a WBREAK is in progress, or nothing. -/
theorem blockTurn_inv {s t : State} (h : s.Inv) (e : blockTurn s = .next t) : t.Inv := by
  cases hw : s.waiting with
  | none => rw [blockTurn_of_free hw] at e; cases e; exact h
  | some w =>
    rw [blockTurn_of_waiting hw] at e
    obtain ⟨hb, h0, _⟩ := h.wait w hw
    exact waitPass_inv h.quiet ⟨hb, h0⟩ e

/-- The register port is served between commands only, so the invariant is due of what it serves only there. -/
theorem portTurn_inv {s t : State} {o : Out} (h : s.Inv)
    (ho : s.waiting = none → o = .next t → t.Inv) (e : portTurn s o = .next t) : t.Inv := by
  cases hw : s.waiting with
  | none => rw [portTurn_of_free hw] at e; exact ho hw e
  | some w =>
    rw [portTurn_of_waiting hw, ← blockTurn_of_waiting hw] at e
    exact blockTurn_inv h e

theorem regRead_inv {n : BitVec 5} {s t : State} (h : s.Inv) (e : regRead n s = .next t) : t.Inv := by
  unfold regRead at e
  split at e
  · cases e
  · cases e; exact ⟨h.buf, h.baud, h.slpctl, h.line, h.results, h.wait, h.queue, h.params⟩

theorem regWrite_inv {n : BitVec 5} {v : Nat} {s : State} (h : s.Quiet) (hw : s.waiting = none) :
    (regWrite n v s).Inv := by
  unfold regWrite
  split
  · exact State.Quiet.inv ⟨h.buf, h.baud, h.slpctl, h.line, h.results, h.queue, h.params⟩ hw
  · split
    · have hn := n.isLt
      exact State.Quiet.inv ⟨Memory.writeByte_wf _ (by simp only [bufCap]; omega) h.buf, h.baud, h.slpctl,
        h.line, h.results, h.queue, h.params⟩ hw
    · exact h.inv hw

/-- A move of the environment: the clock does not go back and the rate stays. -/
theorem applyMove_inv (m : Move) {s : State} (h : s.Inv) : (applyMove m s).Inv := by
  refine State.inv_iff.2 ⟨State.Quiet.stable.move m s h.quiet, fun w hw => ?_⟩
  have d := applyMove_drift m s
  obtain ⟨hb, h0, ho⟩ := h.wait w ((congrArg State.waiting d.frame).symm.trans hw)
  obtain ⟨hb', h0'⟩ := State.localsLegal_applyMove m ⟨hb, h0⟩
  exact ⟨hb', h0', (congrArg Option.isSome d.rate).trans ho⟩

/-- Settles O52, by what stands first on the agenda: a command keeps the invariant by `exec_inv`, every other
turn by the lemma on its agent. -/
theorem everyStepKeepsInvariant : Obligations.EveryStepKeepsInvariant := by
  intro s t h e
  have hA : ∀ rest, State.Inv { s with agenda := rest } := fun _ =>
    ⟨h.buf, h.baud, h.slpctl, h.line, h.results, h.wait, h.queue, h.params⟩
  match ha : s.agenda with
  | [] => rw [step_nil ha] at e; exact blockTurn_inv h e
  | .command w :: rest =>
    cases hw : s.waiting with
    | none => rw [step_command hw ha] at e; exact exec_inv (hA rest).quiet e
    | some v => rw [step_command_of_waiting hw ha] at e; exact blockTurn_inv h e
  | .regRead n :: rest =>
    rw [step_regRead ha] at e
    exact portTurn_inv h (fun _ e => regRead_inv (hA rest) e) e
  | .regWrite n v :: rest =>
    rw [step_regWrite ha] at e
    exact portTurn_inv h (fun hw e => by cases e; exact regWrite_inv (hA rest).quiet hw) e
  | .reset st :: rest => rw [step_reset ha] at e; exact applyReset_inv (hA rest).params (hA rest).queue e
  | .openChannel r :: rest =>
    cases hw : s.waiting with
    | none =>
      rw [step_openChannel hw ha] at e
      cases e
      exact State.Quiet.inv ⟨h.buf, h.baud, h.slpctl, h.line, h.results, fun _ => rfl, h.params⟩ hw
    | some w => rw [step_openChannel_of_waiting hw ha] at e; cases e
  | .move m :: rest => rw [step_move ha] at e; cases e; exact applyMove_inv m (hA rest)

end Sys2Proof.Machine

namespace Sys2Proof.Machine

open Sys2Proof.Config

/-! ### What a command writes besides the result registers -/

/-- `t` is `s` but for the result registers, the locals of a WBREAK, the trace, the channel, the wire, the clock
and the consumed gaps. -/
abbrev State.onlyResults (s t : State) : Prop :=
  t = { s with
    status := t.status, res := t.res, count := t.count, vcount := t.vcount, waiting := t.waiting,
    trace := t.trace, chan := t.chan, wire := t.wire, now := t.now, during := t.during }

/-- `s` with the registers of `t` that command `i` may write besides the result registers (`10_state.md` R13,
R14, R16, R18, R23). -/
def State.takingWritesOf (s : State) (i : Instr) (t : State) : State :=
  match i with
  | .setid _ _ => { s with ident := t.ident }
  | .sleep _ _ => { s with slpctl := t.slpctl, line := t.line }
  | .read _ _ | .rdstrm _ _ => { s with buf := t.buf }
  | _ => s

theorem State.takingWritesOf_const (s : State) (i : Instr) (t : State) :
    (s.takingWritesOf i t).baud = s.baud ∧ (s.takingWritesOf i t).timeout = s.timeout ∧
    (s.takingWritesOf i t).params = s.params ∧ (s.takingWritesOf i t).agenda = s.agenda ∧
    (s.takingWritesOf i t).portOut = s.portOut := by
  cases i <;> exact ⟨rfl, rfl, rfl, rfl, rfl⟩

theorem State.takingWritesOf_ident {i : Instr} (h : ∀ len arg, i ≠ .setid len arg) (s t : State) :
    (s.takingWritesOf i t).ident = s.ident := by
  cases i with
  | setid len arg => exact absurd rfl (h len arg)
  | _ => rfl

theorem State.takingWritesOf_slpctl_line {i : Instr} (h : ∀ len arg, i ≠ .sleep len arg) (s t : State) :
    (s.takingWritesOf i t).slpctl = s.slpctl ∧ (s.takingWritesOf i t).line = s.line := by
  cases i with
  | sleep len arg => exact absurd rfl (h len arg)
  | _ => exact ⟨rfl, rfl⟩

theorem State.takingWritesOf_buf {i : Instr} (h : ∀ len arg, i ≠ .read len arg ∧ i ≠ .rdstrm len arg)
    (s t : State) : (s.takingWritesOf i t).buf = s.buf := by
  cases i with
  | read len arg => exact absurd rfl (h len arg).1
  | rdstrm len arg => exact absurd rfl (h len arg).2
  | _ => rfl

/-- Where no reset comes inside the command, no reset abandons it. -/
theorem State.noReset.not_abandoned {s t : State} {plan : List Call} (h : s.noReset) :
    ¬ Abandoned s t plan := by
  rintro ⟨k, g, st, hg, hr, _⟩
  cases (h g (List.mem_of_getElem? hg)).symm.trans hr

/-- The end of a command whose calls met no reset. -/
theorem Run.MadeOrAbandoned.finish_of_noReset {α : Type} {s0 t : State} {plan : List Call}
    {C : List Call → Prop} {r : Run α} {k : α → State → Out} {P : Prop} (h : r.MadeOrAbandoned s0 plan C)
    (hn : s0.noReset) (hk : ∀ a s cs, Made s0 s cs → C cs → k a s = .next t → P)
    (e : r.finish k = .next t) : P :=
  (h.finish (fun a s cs hm hc e => .inl (hk a s cs hm hc e)) e).resolve_right hn.not_abandoned

/-- A header and then bytes, the calls of a whole frame (`43_frame_operations.md` R152, R162). -/
theorem frame_madeOrAbandoned (id : Byte) (p : List Byte) (s : State) :
    ((sendHeader id s).bind fun _ u => chanWrites p u).MadeOrAbandoned s
      (headerCalls s.baud id ++ writeCalls p) (· = headerCalls s.baud id ++ writeCalls p) := by
  refine (sendHeader_madeOrAbandoned id (Made.refl s) (List.prefix_append _ _)).bind fun _ _ _ hm hc => ?_
  subst hc
  exact chanWrites_madeOrAbandoned p hm List.prefix_rfl

section Frames

variable {s t : State}

theorem Made.onlyResults_endCommand {u : State} {cs : List Call} (h : Made s u cs) (st : Status) (res : Byte)
    (c v : BitVec 4) : s.onlyResults (u.endCommand st res c v) := by
  rw [h.frame]; rfl

theorem Made.onlyResults_keepWaiting {u : State} {cs : List Call} (h : Made s u cs) (w : Wait) :
    s.onlyResults (u.keepWaiting w) := by
  rw [h.frame]; rfl

/-- A command whose calls are a pulse, a header or a payload and that then ends. -/
theorem Run.MadeOrAbandoned.onlyResults_ended {α : Type} {plan : List Call} {C : List Call → Prop} {r : Run α}
    {st : Status} {res : Byte} (h : r.MadeOrAbandoned s plan C) (hn : s.noReset)
    (e : (r.finish fun _ u => .next (u.endCommand st res 0#4 0#4)) = .next t) : s.onlyResults t :=
  h.finish_of_noReset hn (fun _ _ _ hm _ e => by cases e; exact hm.onlyResults_endCommand st res 0#4 0#4) e

theorem waitTimeTest_onlyResults {u : State} {cs : List Call} {w : Wait} (hn : s.noReset) (h : Made s u cs)
    (hc : bytesWritten cs = []) (e : waitTimeTest w u = .next t) : s.onlyResults t := by
  unfold waitTimeTest at e
  split at e
  · cases e; exact h.onlyResults_keepWaiting w
  · refine (timeNow_madeOrAbandoned h (.nothing hc)).finish_of_noReset hn (fun _ _ _ hm _ e => ?_) e
    split at e
    · cases e; exact hm.onlyResults_endCommand .timeout 0#8 0#4 0#4
    · cases e; exact hm.onlyResults_keepWaiting w

theorem waitPass_onlyResults {u : State} {cs : List Call} {w : Wait} (hn : s.noReset) (h : Made s u cs)
    (hc : bytesWritten cs = []) (e : waitPass w u = .next t) : s.onlyResults t := by
  refine (chanPollFE_madeOrAbandoned h (.nothing hc)).finish_of_noReset hn (fun fe _ _ hm hd e => ?_) e
  cases fe with
  | true => cases e; exact hm.onlyResults_endCommand .ok (boolRes true) 0#4 0#4
  | false =>
    obtain ⟨_, rfl⟩ := hd
    exact waitTimeTest_onlyResults hn hm (by simp [hc, bytesWritten]) e

theorem execWbreak_onlyResults (hn : s.noReset) (e : execWbreak s = .next t) : s.onlyResults t := by
  refine (timeNow_madeOrAbandoned (Made.refl s) (.nothing rfl)).finish_of_noReset hn
    (fun _ _ _ hm hd e => ?_) e
  obtain ⟨_, rfl⟩ := hd
  exact waitPass_onlyResults hn hm rfl e

theorem execCksum_onlyResults {len : BitVec 4} (e : execCksum len s = .next t) : s.onlyResults t := by
  obtain ⟨p, _, _, e⟩ := withPayload_next e
  cases e; rfl

theorem execVcksum_onlyResults {len : BitVec 4} (e : execVcksum len s = .next t) : s.onlyResults t := by
  unfold execVcksum at e
  split at e
  · cases e; rfl
  · obtain ⟨p, _, _, e⟩ := withPayload_next e
    split at e <;> (cases e; rfl)

theorem execValid_onlyResults {arg : Byte} (e : execValid arg s = .next t) : s.onlyResults t := by
  unfold execValid at e
  split at e <;> (cases e; rfl)

theorem execWrite_onlyResults {len : BitVec 4} {arg : Byte} (hn : s.noReset)
    (e : execWrite len arg s = .next t) : s.onlyResults t := by
  unfold execWrite at e
  split at e
  · cases e; rfl
  · obtain ⟨p, _, _, e⟩ := withPayload_next e
    exact (frame_madeOrAbandoned arg (p ++ [checksum p]) s).onlyResults_ended hn e

theorem execWrresp_onlyResults {len : BitVec 4} (hn : s.noReset) (e : execWrresp len s = .next t) :
    s.onlyResults t := by
  unfold execWrresp at e
  split at e
  · cases e; rfl
  · obtain ⟨p, _, _, e⟩ := withPayload_next e
    exact (chanWrites_madeOrAbandoned _ (Made.refl s) List.prefix_rfl).onlyResults_ended hn e

theorem execWrstrm_onlyResults {len : BitVec 4} (hn : s.noReset) (e : execWrstrm len s = .next t) :
    s.onlyResults t := by
  unfold execWrstrm at e
  split at e
  · cases e; rfl
  · obtain ⟨p, _, _, e⟩ := withPayload_next e
    exact (frame_madeOrAbandoned s.ident p s).onlyResults_ended hn e

theorem execRead_onlyResults {len : BitVec 4} (hn : s.noReset) (e : execRead len s = .next t) :
    State.onlyResults { s with buf := t.buf } t := by
  refine (chanRead_madeOrAbandoned len.toNat (Made.refl s) (.nothing rfl)).finish_of_noReset hn
    (fun bytes u _ hm _ e => ?_) e
  obtain ⟨st, v, hj, _⟩ := judgeRead_ended bytes (storeRead bytes u)
  rw [hj] at e
  cases e
  rw [hm.frame]; rfl

theorem execRdstrm_onlyResults {len : BitVec 4} (hn : s.noReset) (e : execRdstrm len s = .next t) :
    State.onlyResults { s with buf := t.buf } t := by
  refine (chanRead_madeOrAbandoned len.toNat (Made.refl s) (.nothing rfl)).finish_of_noReset hn
    (fun bytes u _ hm _ e => ?_) e
  cases e
  rw [hm.frame]; rfl

theorem execSleep_onlyResults {arg : Byte} (hn : s.noReset) (e : execSleep arg s = .next t) :
    State.onlyResults { s with slpctl := t.slpctl, line := t.line } t := by
  unfold execSleep at e
  split at e
  · obtain ⟨u, hu, hf, _⟩ := driveLine_ran (enterSleep arg) hn
    rw [hu] at e
    cases e
    rw [hf]; rfl
  · cases e; rfl

/-- The frame of every command that meets no reset. -/
theorem exec_onlyResults {i : Instr} (hn : s.noReset) (e : exec i s = .next t) :
    (s.takingWritesOf i t).onlyResults t := by
  cases i with
  | cksum => exact execCksum_onlyResults e
  | vcksum => exact execVcksum_onlyResults e
  | genid => cases e; rfl
  | valid => exact execValid_onlyResults e
  | brk => exact (pulse_madeOrAbandoned _ _ (Made.refl s) List.prefix_rfl).onlyResults_ended hn e
  | wbreak => exact execWbreak_onlyResults hn e
  | wakeup => exact (pulse_madeOrAbandoned _ _ (Made.refl s) List.prefix_rfl).onlyResults_ended hn e
  | sleep => exact execSleep_onlyResults hn e
  | write => exact execWrite_onlyResults hn e
  | wrreq _ arg =>
    exact (sendHeader_madeOrAbandoned arg (Made.refl s) List.prefix_rfl).onlyResults_ended hn e
  | wrresp => exact execWrresp_onlyResults hn e
  | wrstrm => exact execWrstrm_onlyResults hn e
  | read => exact execRead_onlyResults hn e
  | rdstrm => exact execRdstrm_onlyResults hn e
  | setid => cases e; rfl
  | reservedF => cases e; rfl

end Frames

/-- Settles O48, from the frame of every command. -/
theorem onlyTheNamedCommandsWrite : Obligations.OnlyTheNamedCommandsWrite := by
  intro i s t hn e
  have f := exec_onlyResults hn e
  obtain ⟨hb, ht, hp, ha, ho⟩ := s.takingWritesOf_const i t
  refine ⟨(congrArg State.baud f).trans hb, (congrArg State.timeout f).trans ht,
    (congrArg State.params f).trans hp, (congrArg State.agenda f).trans ha,
    (congrArg State.portOut f).trans ho, fun hi => ?_, fun hi => ?_, fun hi k => ?_⟩
  · exact (congrArg State.ident f).trans (State.takingWritesOf_ident hi s t)
  · obtain ⟨hc, hl⟩ := State.takingWritesOf_slpctl_line hi s t
    exact ⟨(congrArg State.slpctl f).trans hc, (congrArg State.line f).trans hl⟩
  · rw [(congrArg State.buf f).trans (State.takingWritesOf_buf hi s t)]

/-! ### The result registers are not read -/

section Alike

variable (s : State) (q : Results)

theorem chanOpen_alike (r : Rate) : (chanOpen r s).Alike q (chanOpen r (s.withResults q)) :=
  (enterCall_alike s q).bind fun _ _ => ⟨rfl, rfl⟩

theorem chanWrite_alike (b : Byte) : (chanWrite b s).Alike q (chanWrite b (s.withResults q)) :=
  (enterCall_alike s q).bind fun _ s => needRate_alike s q fun _ => ⟨rfl, rfl⟩

theorem chanWrites_alike (p : List Byte) : (chanWrites p s).Alike q (chanWrites p (s.withResults q)) := by
  induction p generalizing s with
  | nil => exact ⟨rfl, rfl⟩
  | cons b p ih => exact (chanWrite_alike s q b).bind fun _ s => ih s

theorem chanFlush_alike : (chanFlush s).Alike q (chanFlush (s.withResults q)) :=
  (enterCall_alike s q).bind fun _ s => needRate_alike s q fun _ => ⟨rfl, rfl⟩

theorem chanRead_alike (n : Nat) : (chanRead n s).Alike q (chanRead n (s.withResults q)) :=
  (enterCall_alike s q).bind fun _ s => needRate_alike s q fun _ => ⟨rfl, rfl⟩

theorem chanPollFE_alike : (chanPollFE s).Alike q (chanPollFE (s.withResults q)) :=
  (enterCall_alike s q).bind fun _ s => needRate_alike s q fun _ => ⟨rfl, rfl⟩

theorem timeNow_alike : (timeNow s).Alike q (timeNow (s.withResults q)) :=
  (enterCall_alike s q).bind fun _ _ => ⟨rfl, rfl⟩

theorem lineWrite_alike (l : Level) : (lineWrite l s).Alike q (lineWrite l (s.withResults q)) :=
  (enterCall_alike s q).bind fun _ _ => ⟨rfl, rfl⟩

theorem delayUs_alike (n : Nat) : (delayUs n s).Alike q (delayUs n (s.withResults q)) :=
  (enterCall_alike s q).bind fun _ _ => ⟨rfl, rfl⟩

theorem driveLine_alike (b : Bool) : (driveLine b s).Alike q (driveLine b (s.withResults q)) :=
  (lineWrite_alike s q (levelOf b)).bind fun _ s => delayUs_alike (s.setSlpLevel b) q tSettle

theorem pulse_alike (lowered normal : Rate) :
    (pulse lowered normal s).Alike q (pulse lowered normal (s.withResults q)) :=
  (chanOpen_alike s q lowered).bind fun _ s => (chanWrite_alike s q breakByte).bind fun _ s =>
    (chanFlush_alike s q).bind fun _ s => chanOpen_alike s q normal

theorem sendHeader_alike (id : Byte) : (sendHeader id s).Alike q (sendHeader id (s.withResults q)) :=
  (pulse_alike s q (halfRate s.baud) s.baud).bind fun _ s => (chanWrite_alike s q sync).bind fun _ s =>
    chanWrite_alike s q id

end Alike

/-- Two outcomes are the same, or both are next states of a WBREAK that goes on waiting, apart only in the result
registers. -/
def OutcomesAlike (q : Results) (o o' : Out) : Prop :=
  o' = o ∨ ∃ t, o = .next t ∧ t.waiting ≠ none ∧ o' = .next (t.withResults q)

theorem Run.Alike.finish {α : Type} {q : Results} {r r' : Run α} {k k' : α → State → Out}
    (h : r.Alike q r') (hk : ∀ a s, OutcomesAlike q (k a s) (k' a (s.withResults q))) :
    OutcomesAlike q (r.finish k) (r'.finish k') := by
  cases r with
  | going a s =>
    cases r' with
    | going a' s' => obtain ⟨rfl, rfl⟩ := h; exact hk a s
    | halted o' => exact h.elim
  | halted o =>
    cases r' with
    | going a' s' => exact h.elim
    | halted o' => exact .inl (Eq.symm h)

/-- The payload is read from BUF. -/
theorem withPayload_alike {q : Results} {len : BitVec 4} {s : State} {k k' : List Byte → Out}
    (hk : ∀ p, OutcomesAlike q (k p) (k' p)) :
    OutcomesAlike q (withPayload len s k) (withPayload len (s.withResults q) k') := by
  have hb : (s.withResults q).buf = s.buf := rfl
  unfold withPayload
  rw [hb]
  split
  · exact .inl rfl
  · exact hk _

/-- READ's tests write all four result registers (`10_state.md` R22). -/
theorem judgeRead_withResults (bytes : List Byte) (s : State) (q : Results) :
    judgeRead bytes (s.withResults q) = judgeRead bytes s := by
  cases bytes <;> rfl

section AlikeCommands

variable (s : State) (q : Results)

theorem keepWaiting_alike (w : Wait) :
    OutcomesAlike q (.next (s.keepWaiting w)) (.next ((s.withResults q).keepWaiting w)) :=
  .inr ⟨_, rfl, by simp, rfl⟩

theorem waitTimeTest_alike (w : Wait) :
    OutcomesAlike q (waitTimeTest w s) (waitTimeTest w (s.withResults q)) := by
  unfold waitTimeTest
  split
  · exact keepWaiting_alike s q w
  · refine (timeNow_alike s q).finish fun t s => ?_
    split
    · exact .inl rfl
    · exact keepWaiting_alike s q w

theorem waitPass_alike (w : Wait) : OutcomesAlike q (waitPass w s) (waitPass w (s.withResults q)) :=
  (chanPollFE_alike s q).finish fun fe s => by
    cases fe with
    | true => exact .inl rfl
    | false => exact waitTimeTest_alike s q w

/-- A run of calls and then the end of the command. -/
theorem Run.Alike.ended {α : Type} {r r' : Run α} (h : r.Alike q r') {st : Status} {res : Byte}
    {c v : BitVec 4} :
    OutcomesAlike q (r.finish fun _ s => .next (s.endCommand st res c v))
      (r'.finish fun _ s => .next (s.endCommand st res c v)) :=
  h.finish fun _ _ => .inl rfl

theorem execVcksum_alike (len : BitVec 4) :
    OutcomesAlike q (execVcksum len s) (execVcksum len (s.withResults q)) := by
  unfold execVcksum
  split
  · exact .inl rfl
  · exact withPayload_alike fun p => .inl rfl

theorem execSleep_alike (arg : Byte) : OutcomesAlike q (execSleep arg s) (execSleep arg (s.withResults q)) := by
  have hc : (s.withResults q).slpctl = s.slpctl := rfl
  unfold execSleep
  rw [hc]
  split
  · exact (driveLine_alike s q (enterSleep arg)).ended
  · exact .inl rfl

theorem execWrite_alike (len : BitVec 4) (arg : Byte) :
    OutcomesAlike q (execWrite len arg s) (execWrite len arg (s.withResults q)) := by
  unfold execWrite
  split
  · exact .inl rfl
  · exact withPayload_alike fun p => Run.Alike.ended q <|
      (sendHeader_alike s q arg).bind fun _ s => chanWrites_alike s q (p ++ [checksum p])

theorem execWrresp_alike (len : BitVec 4) :
    OutcomesAlike q (execWrresp len s) (execWrresp len (s.withResults q)) := by
  unfold execWrresp
  split
  · exact .inl rfl
  · exact withPayload_alike fun p => (chanWrites_alike s q (p ++ [checksum p])).ended

theorem execWrstrm_alike (len : BitVec 4) :
    OutcomesAlike q (execWrstrm len s) (execWrstrm len (s.withResults q)) := by
  unfold execWrstrm
  split
  · exact .inl rfl
  · exact withPayload_alike fun p => Run.Alike.ended q <|
      (sendHeader_alike s q s.ident).bind fun _ s => chanWrites_alike s q p

theorem execRead_alike (len : BitVec 4) : OutcomesAlike q (execRead len s) (execRead len (s.withResults q)) :=
  (chanRead_alike s q len.toNat).finish fun bytes s =>
    .inl (congrArg Host.Outcome.next (judgeRead_withResults bytes (storeRead bytes s) q))

/-- Every command does the same from two states that differ only in the result registers. -/
theorem exec_alike (i : Instr) : OutcomesAlike q (exec i s) (exec i (s.withResults q)) := by
  cases i with
  | cksum => exact withPayload_alike fun p => .inl rfl
  | vcksum len => exact execVcksum_alike s q len
  | genid => exact .inl rfl
  | valid => exact .inl rfl
  | brk => exact (pulse_alike s q (halfRate s.baud) s.baud).ended
  | wbreak => exact (timeNow_alike s q).finish fun t0 s => waitPass_alike s q _
  | wakeup => exact (pulse_alike s q s.params.wakeBaud s.baud).ended
  | sleep _ arg => exact execSleep_alike s q arg
  | write len arg => exact execWrite_alike s q len arg
  | wrreq _ arg => exact (sendHeader_alike s q arg).ended
  | wrresp len => exact execWrresp_alike s q len
  | wrstrm len => exact execWrstrm_alike s q len
  | read len => exact execRead_alike s q len
  | rdstrm len => exact (chanRead_alike s q len.toNat).finish fun bytes s => .inl rfl
  | setid => exact .inl rfl
  | reservedF => exact .inl rfl

end AlikeCommands

/-- Settles O50: the two runs' outcomes are alike, and alike outcomes are what the statement asks for. -/
theorem resultRegistersAreNotRead : Obligations.ResultRegistersAreNotRead := by
  intro i s st r c v
  rcases exec_alike s ⟨st, r, c, v⟩ i with e | ⟨u, hu, hw, e⟩
  · exact ⟨fun _ h => .inl (e.trans h), fun _ h => e.trans h, fun _ h => e.trans h⟩
  · refine ⟨fun t h => .inr ?_, fun _ h => (nomatch hu.symm.trans h), fun _ h => (nomatch hu.symm.trans h)⟩
    cases hu.symm.trans h
    exact ⟨hw, e⟩

/-! ### BUF -/

/-- A byte written is the byte read, and no other byte changes: by induction on the listed bytes, as
`Memory.writeByte` recurses. -/
theorem Memory.readByte_writeByte (m : Memory) (i j : Nat) (v : Byte) :
    (m.writeByte i v).readByte j = if j = i then some v else m.readByte j := by
  induction m with
  | nil => simp only [Memory.writeByte, Memory.readByte, eq_comm]
  | cons d m ih =>
    obtain ⟨a, b⟩ := d
    rw [Memory.writeByte]
    split
    · simp only [Memory.readByte_cons, eq_comm]
    · split
      · next _ hia =>
        subst hia
        simp only [Memory.readByte_cons, eq_comm (a := j)]
        split <;> rfl
      · next _ hne =>
        simp only [Memory.readByte_cons, ih]
        by_cases haj : a = j
        · have hji : j ≠ i := fun h => hne (h ▸ haj.symm)
          simp only [haj, if_true, hji, if_false]
        · simp only [haj, if_false]

/-- Settles O39, by the law of one write and one read. -/
theorem writtenByteIsReadBack : Obligations.WrittenByteIsReadBack := Memory.readByte_writeByte

/-- `readBytes` stops at the first byte without a value. -/
theorem Memory.readBytes_error {m : Memory} {a k n : Nat} (hk : k < n) (hn : m.readByte (a + k) = none)
    (hs : ∀ j, j < k → (m.readByte (a + j)).isSome = true) : m.readBytes a n = .error (a + k) := by
  induction n generalizing a k with
  | zero => omega
  | succ n ih =>
    rw [Memory.readBytes]
    cases k with
    | zero => rw [show m.readByte a = none from hn]; rfl
    | succ k =>
      obtain ⟨b, hb⟩ := Option.isSome_iff_exists.1 (hs 0 (Nat.succ_pos k))
      have hr : m.readBytes (a + 1) n = .error (a + 1 + k) :=
        ih (Nat.lt_of_succ_lt_succ hk) (by rwa [Nat.add_right_comm])
          fun j hj => by rw [Nat.add_right_comm]; exact hs (j + 1) (Nat.succ_lt_succ hj)
      rw [show m.readByte a = some b from hb, hr, Nat.add_right_comm]; rfl

/-- A command whose payload has a byte without value faults at the first one (`10_state.md` R24). -/
theorem withPayload_fault {len : BitVec 4} {s : State} {k : Nat} (hk : k < len.toNat)
    (hn : s.buf.readByte k = none) (hs : ∀ j, j < k → (s.buf.readByte j).isSome = true)
    (f : List Byte → Out) : withPayload len s f = .fault (.bufUnwritten k) := by
  have hr : s.buf.readBytes 0 len.toNat = .error (0 + k) :=
    Memory.readBytes_error hk (by rwa [Nat.zero_add]) fun j hj => by rw [Nat.zero_add]; exact hs j hj
  rw [withPayload, hr, Nat.zero_add]

/-- Reset takes every value of BUF away (`10_state.md` R24). -/
theorem applyReset_buf {st : Straps} {s t : State} (h : applyReset st s = .next t) : t.buf = [] := by
  unfold applyReset at h
  split at h
  · rw [resetSequence_eq] at h; cases h; rfl
  · cases h

/-- Settles O40: reset empties BUF, and the five commands read their payload before anything else. -/
theorem unwrittenByteFaults : Obligations.UnwrittenByteFaults := by
  refine ⟨fun s t st rest k ha e => ?_, fun len arg k s hk hn hs => ?_⟩
  · rw [step_reset ha] at e
    rw [applyReset_buf e, Memory.readByte_nil]
  · have hf := withPayload_fault hk hn hs
    have hl : len ≠ 0#4 := by rintro rfl; exact absurd hk (Nat.not_lt_zero k)
    refine ⟨hf _, ?_, fun h8 => ?_⟩
    · simp only [exec, execVcksum, hl, if_false, hf]
    · have ht : lenTooLong len = false := decide_eq_false (Nat.not_lt.2 h8)
      simp only [exec, execWrite, execWrresp, execWrstrm, ht, Bool.false_eq_true, if_false, hf, and_self]

/-! ### The ports -/

/-- Settles O6: the step of a presented word with the ports free. -/
theorem stepRunsDecodedCommand : Obligations.StepRunsDecodedCommand :=
  fun _ _ _ hw ha => step_command hw ha

/-- A table word of 16 bits is read as the word it is (`30_encoding.md` R80). -/
theorem decodeTableWord_toNat (w : CmdWord) : decodeTableWord 16 w.toNat = some (decodeWord w) := by
  rw [decodeTableWord, if_pos ⟨Nat.le_refl 16, w.isLt⟩, BitVec.ofNat_toNat, BitVec.setWidth_eq]

/-- Settles O7: the placed word stands first on the agenda and the ports are free. -/
theorem fetchWordRunsNext : Obligations.FetchWordRunsNext := by
  intro s w
  have hp : s.withFetchWord 16 w.toNat = placeCommand w s := by
    rw [State.withFetchWord, Nat.mod_eq_of_lt w.isLt, BitVec.ofNat_toNat, BitVec.setWidth_eq]
  exact ⟨hp ▸ step_command (s := placeCommand w s) rfl rfl, decodeTableWord_toNat w⟩

/-- No pass of WBREAK's loop takes anything from the agenda. -/
theorem State.passOutcome.agenda {s t : State} {w : Wait} {pre : List Call} (h : s.passOutcome t w pre) :
    t.agenda = s.agenda := by
  obtain ⟨_, ⟨hf, _⟩ | ⟨_, hf, _⟩ | ⟨_, _, _, hf, _⟩ | ⟨_, _, _, hf, _⟩⟩ := h <;>
    rw [hf]

/-- With a WBREAK in progress a step in which the host presents nothing or uses a port is a pass of the loop. -/
theorem step_waiting {s : State} {w : Wait} (hw : s.waiting = some w)
    (ha : s.agenda = [] ∨ (∃ cw rest, s.agenda = .command cw :: rest) ∨
      (∃ n rest, s.agenda = .regRead n :: rest) ∨ (∃ n v rest, s.agenda = .regWrite n v :: rest)) :
    step s = waitPass w s := by
  rcases ha with ha | ⟨cw, rest, ha⟩ | ⟨n, rest, ha⟩ | ⟨n, v, rest, ha⟩
  · rw [step_nil ha, blockTurn_of_waiting hw]
  · rw [step_command_of_waiting hw ha, blockTurn_of_waiting hw]
  · rw [step_regRead ha, portTurn_of_waiting hw]
  · rw [step_regWrite ha, portTurn_of_waiting hw]

/-- Settles O9: the step is one pass of the loop, whose outcomes are those of `waitPass_outcome`. -/
theorem portsHeldWhileWaiting : Obligations.PortsHeldWhileWaiting := by
  intro s w hw hn ho ha
  obtain ⟨t, e, hp⟩ := waitPass_outcome (w := w) hn (Ran.refl s) ho rfl
  exact ⟨t, (step_waiting hw ha).trans e, hp.agenda, hp⟩

/-! ### The register port -/

theorem regWrite_timeout (v : Nat) (s : State) :
    regWrite 3#5 v s = { s with timeout := BitVec.ofNat 32 v } := rfl

theorem regWrite_buf {n : BitVec 5} (h : 16 ≤ n.toNat) (v : Nat) (s : State) :
    regWrite n v s = { s with buf := s.buf.writeByte (n.toNat - 16) (BitVec.ofNat 8 v) } := by
  rw [regWrite, if_neg (by omega), if_pos h]

theorem regWrite_none {n : BitVec 5} (h3 : n ≠ 3#5) (h : n.toNat < 16) (v : Nat) (s : State) :
    regWrite n v s = s := by
  have h3' : n.toNat ≠ 3 := fun e => h3 (BitVec.eq_of_toNat_eq e)
  rw [regWrite, if_neg h3', if_neg (by omega)]

/-- Settles O55: between commands the step is `regWrite`, in its three ranges of register numbers. -/
theorem regWriteWritesTimeoutAndBuf : Obligations.RegWriteWritesTimeoutAndBuf := by
  intro s n v rest hw ha
  rw [step_regWrite ha, portTurn_of_free hw]
  refine ⟨fun h => ?_, fun h => ⟨s.buf.writeByte (n.toNat - 16) (BitVec.ofNat 8 v), ?_, fun k => ?_⟩,
    fun h3 h => ?_⟩
  · rw [h, regWrite_timeout]
  · rw [regWrite_buf h]
  · exact Memory.readByte_writeByte s.buf (n.toNat - 16) k (BitVec.ofNat 8 v)
  · rw [regWrite_none h3 h]

/-- Registers from 8: the hole, which reads 0, then the bytes of BUF (`10_state.md` section 3). -/
theorem regValue_of_ge {n : BitVec 5} (h : 8 ≤ n.toNat) (s : State) :
    regValue n s = if n.toNat < 16 then .ok 0#32
      else (s.buf.readByte (n.toNat - 16)).elim (.error (n.toNat - 16)) fun b => .ok (b.setWidth 32) := by
  unfold regValue
  split <;> try omega
  cases s.buf.readByte (n.toNat - 16) <;> rfl

theorem regValue_buf {n : BitVec 5} (h : 16 ≤ n.toNat) (s : State) :
    regValue n s = (s.buf.readByte (n.toNat - 16)).elim (.error (n.toNat - 16)) fun b => .ok (b.setWidth 32) := by
  rw [regValue_of_ge (by omega), if_neg (by omega)]

/-- A register of at most 32 bits, zero extended, as the register port answers it. -/
theorem ok_setWidth_of_toNat {k : Nat} (hk : k ≤ 32) {v : BitVec 32} {x : BitVec k}
    (h : v.toNat = x.toNat) : (.ok (x.setWidth 32) : Except Nat (BitVec 32)) = .ok v :=
  congrArg Except.ok (BitVec.eq_of_toNat_eq (by rw [h, BitVec.toNat_setWidth_of_le hk]))

theorem regRead_ok {n : BitVec 5} {s : State} {v : BitVec 32} (h : regValue n s = .ok v) :
    regRead n s = .next { s with portOut := s.portOut ++ [{ number := n, value := v }] } := by
  simp only [regRead, h]

/-- Settles O54: between commands the step is `regRead`, register by register. -/
theorem regReadReturnsRegister : Obligations.RegReadReturnsRegister := by
  intro s n rest hw ha
  rw [step_regRead ha, portTurn_of_free hw]
  refine ⟨fun v hv => regRead_ok ?_, fun h hn => ?_⟩
  · rcases hv with ⟨rfl, rfl⟩ | ⟨rfl, hv⟩ | ⟨rfl, hv⟩ | ⟨rfl, rfl⟩ | ⟨rfl, hv⟩ | ⟨rfl, hv⟩ | ⟨rfl, hv⟩ |
      ⟨rfl, hv⟩ | ⟨h8, h16, rfl⟩ | ⟨h, b, hb, hv⟩
    · rfl
    · exact ok_setWidth_of_toNat (by decide) hv
    · exact ok_setWidth_of_toNat (by decide) hv
    · rfl
    · exact ok_setWidth_of_toNat (by decide) hv
    · exact ok_setWidth_of_toNat (by decide) hv
    · exact ok_setWidth_of_toNat (by decide) hv
    · exact ok_setWidth_of_toNat (by decide) hv
    · rw [regValue_of_ge h8, if_pos h16]
    · rw [regValue_buf h, hb]; exact ok_setWidth_of_toNat (by decide) hv
  · have he : regValue n { s with agenda := rest } = .error (n.toNat - 16) := by rw [regValue_buf h, hn]; rfl
    rw [regRead, he]

end Sys2Proof.Machine

/-! Proofs of the statements about the collaborators (`20_memory.md`). -/

namespace Sys2Proof.Machine

open Sys2Proof.Config

/-! ### The agents between commands -/

/-- The adapter moves where its queue is not empty and the rate is defined (`20_memory.md` R48). -/
theorem adapterSend_cons {s : State} {r : Rate} {b : Byte} {q : List Byte} (hr : s.chan.rate = some r)
    (hq : s.chan.txq = b :: q) : adapterSend s =
      { s with chan := { s.chan with txq := q }, wire := s.wire ++ [{ byte := b, rate := r }] } := by
  simp only [adapterSend, hr, hq]

/-- Settles O56: the step is the adapter's move, whatever the block is doing. -/
theorem adapterSendsHeadAtCurrentRate : Obligations.AdapterSendsHeadAtCurrentRate := by
  intro s r b q rest ha hr hq
  rw [step_move ha]
  exact congrArg Host.Outcome.next (adapterSend_cons (s := { s with agenda := rest }) hr hq)

/-- Settles O57, by whether a WBREAK is in progress. -/
theorem ownerOpensChannelBetweenCommands : Obligations.OwnerOpensChannelBetweenCommands := by
  intro s r rest ha
  refine ⟨fun hw => step_openChannel hw ha, fun hw => ?_⟩
  obtain ⟨w, hw⟩ := Option.ne_none_iff_exists'.1 hw
  exact step_openChannel_of_waiting hw ha

/-! ### A channel never opened -/

section Closed

variable {s : State} (hn : s.noReset) (hr : s.chan.rate = none)
include hn hr

/-- A call that needs the rate is refused: the environment's moves before it do not define the rate. -/
theorem enterCall_needRate_closed {β : Type} (k : Rate → State → Run β) :
    ((enterCall s).bind fun _ u => (needRate u).bind k) = .halted (.refused .channelNotOpen) := by
  obtain ⟨u, hu, hd⟩ := enterCall_going hn
  rw [hu, Run.bind_going, needRate_none (hd.rate.trans hr), Run.bind_halted]

theorem chanWrite_closed (b : Byte) : chanWrite b s = .halted (.refused .channelNotOpen) :=
  enterCall_needRate_closed hn hr _

theorem chanRead_closed (n : Nat) : chanRead n s = .halted (.refused .channelNotOpen) :=
  enterCall_needRate_closed hn hr _

theorem chanPollFE_closed : chanPollFE s = .halted (.refused .channelNotOpen) :=
  enterCall_needRate_closed hn hr _

/-- The first of at least one ChanWrite is refused. -/
theorem chanWrites_closed {p : List Byte} (hp : p ≠ []) :
    chanWrites p s = .halted (.refused .channelNotOpen) := by
  cases p with
  | nil => exact absurd rfl hp
  | cons b p => rw [chanWrites, chanWrite_closed hn hr, Run.bind_halted]

theorem waitPass_closed (w : Wait) : waitPass w s = .refused .channelNotOpen := by
  rw [waitPass, chanPollFE_closed hn hr, Run.finish_halted]

/-- WBREAK reads the clock, which needs no channel, and is refused at its first sample. -/
theorem execWbreak_closed : execWbreak s = .refused .channelNotOpen := by
  obtain ⟨u, hu, hran, hrate, _⟩ := timeNow_ran hn
  rw [execWbreak, hu, Run.finish_going, waitPass_closed (hran.noReset hn) (hrate.trans hr)]

theorem execRead_closed (len : BitVec 4) : execRead len s = .refused .channelNotOpen := by
  rw [execRead, chanRead_closed hn hr, Run.finish_halted]

theorem execRdstrm_closed (len : BitVec 4) : execRdstrm len s = .refused .channelNotOpen := by
  rw [execRdstrm, chanRead_closed hn hr, Run.finish_halted]

/-- WRRESP writes at least its checksum, so it is refused at every length it accepts. -/
theorem execWrresp_closed {len : BitVec 4} {p : List Byte} (h8 : len.toNat ≤ 8) (hl : p.length = len.toNat)
    (hp : s.holds p) : execWrresp len s = .refused .channelNotOpen := by
  have ht : lenTooLong len = false := decide_eq_false (Nat.not_lt.2 h8)
  simp only [execWrresp, ht, Bool.false_eq_true, if_false, withPayload_holds hl hp]
  rw [chanWrites_closed hn hr (by simp), endTransmit, Run.finish_halted]

end Closed

/-- Settles O41, command by command. -/
theorem closedChannelIsRefused : Obligations.ClosedChannelIsRefused :=
  fun len _ _ _ hn hr => ⟨execWbreak_closed hn hr, execRead_closed hn hr len, execRdstrm_closed hn hr len,
    fun h8 hl hp => execWrresp_closed hn hr h8 hl hp⟩

/-! ### The calls of a command and what they leave of the environment -/

/-- None of the calls is LineSetMode, LineWrite or DelayUs (`20_memory.md` R54). -/
def NoLineCalls (cs : List Call) : Prop := ∀ c ∈ cs, c.isLineCall = false

@[simp] theorem noLineCalls_nil : NoLineCalls [] := List.forall_mem_nil _

@[simp] theorem noLineCalls_cons {c : Call} {cs : List Call} :
    NoLineCalls (c :: cs) ↔ c.isLineCall = false ∧ NoLineCalls cs := List.forall_mem_cons

@[simp] theorem noLineCalls_append {cs ds : List Call} :
    NoLineCalls (cs ++ ds) ↔ NoLineCalls cs ∧ NoLineCalls ds := List.forall_mem_append

theorem noLineCalls_pulse (lowered normal : Rate) : NoLineCalls (pulseCalls lowered normal) := by
  simp [pulseCalls, Call.isLineCall]

theorem noLineCalls_header (baud : Rate) (id : Byte) : NoLineCalls (headerCalls baud id) := by
  simp [headerCalls, noLineCalls_pulse, Call.isLineCall]

theorem noLineCalls_writes (p : List Byte) : NoLineCalls (writeCalls p) := by
  simp [NoLineCalls, writeCalls, Call.isLineCall]

theorem noLineCalls_frame (baud : Rate) (id : Byte) (p : List Byte) :
    NoLineCalls (headerCalls baud id ++ writeCalls p) :=
  noLineCalls_append.2 ⟨noLineCalls_header baud id, noLineCalls_writes p⟩

/-- `t` is reached from `s` by calls that it has in its trace, the environment is as `envMoved` says of them, and
without a control line none of them is a line or delay call. -/
def State.reachesByCalls (s t : State) : Prop :=
  ∃ cs, t.trace = s.trace ++ cs ∧ s.envMoved t cs ∧ (hasSlp s.slpctl = false → NoLineCalls cs)

section Commands

variable {s t : State}

/-- A command that makes no call: trace and environment are as before. -/
theorem State.reachesByCalls_endCommand (s : State) (st : Status) (res : Byte) (c v : BitVec 4) :
    s.reachesByCalls (s.endCommand st res c v) :=
  ⟨[], (List.append_nil _).symm, (Ran.refl s).env, fun _ => noLineCalls_nil⟩

theorem Made.reachesByCalls_endCommand {u : State} {cs : List Call} (h : Made s u cs) (hl : NoLineCalls cs)
    (st : Status) (res : Byte) (c v : BitVec 4) : s.reachesByCalls (u.endCommand st res c v) :=
  ⟨cs, congrArg State.trace h.frame, h.env, fun _ => hl⟩

/-- The end of a command with a fixed plan of calls, none of them on the line. -/
theorem Run.MadeOrAbandoned.reachesByCalls_ended {α : Type} {plan : List Call} {r : Run α} {st : Status}
    {res : Byte} (h : r.MadeOrAbandoned s plan (· = plan)) (hn : s.noReset) (hl : NoLineCalls plan)
    (e : (r.finish fun _ u => .next (u.endCommand st res 0#4 0#4)) = .next t) : s.reachesByCalls t :=
  h.finish_of_noReset hn (fun _ _ _ hm hc e => by
    cases e; exact hm.reachesByCalls_endCommand (hc ▸ hl) st res 0#4 0#4) e

/-- The end of READ and RDSTRM, which make one ChanRead and then write BUF and the result registers. -/
theorem chanRead_reachesByCalls {n : Nat} {k : List Byte → State → Out} (hn : s.noReset)
    (hk : ∀ bytes u, k bytes u = .next t →
      ∃ st c v, t = (storeRead bytes u).endCommand st 0#8 c v)
    (e : (chanRead n s).finish k = .next t) : s.reachesByCalls t := by
  refine (chanRead_madeOrAbandoned n (Made.refl s) (.nothing rfl)).finish_of_noReset hn
    (fun bytes u cs hm hc e => ?_) e
  obtain ⟨bs, rfl⟩ := hc
  obtain ⟨st, c, v, rfl⟩ := hk bytes u e
  exact ⟨_, congrArg State.trace hm.frame, hm.env, fun _ => by simp [Call.isLineCall]⟩

/-- In each of its four outcomes a pass of WBREAK's loop makes only ChanPollFE and Now calls of its own. -/
theorem State.passOutcome.reachesByCalls {w : Wait} {pre : List Call} (h : s.passOutcome t w pre)
    (hl : NoLineCalls pre) : s.reachesByCalls t := by
  obtain ⟨_, ⟨hf, he⟩ | ⟨_, hf, he⟩ | ⟨_, t1, _, hf, he⟩ | ⟨_, t1, _, hf, he⟩⟩ := h <;>
    exact ⟨_, congrArg State.trace hf, he.1, fun _ => by simp [hl, Call.isLineCall]⟩

/-- A pass made after the calls `pre` of the same step; one that answers a next state had an open channel. -/
theorem waitPass_reachesByCalls {u : State} {w : Wait} {pre : List Call} (hn : s.noReset)
    (hran : Ran s u pre) (hrate : u.chan.rate = s.chan.rate) (hl : NoLineCalls pre)
    (e : waitPass w u = .next t) : s.reachesByCalls t := by
  cases hr : u.chan.rate with
  | none => exact nomatch (waitPass_closed (hran.noReset hn) hr w).symm.trans e
  | some r =>
    obtain ⟨v, hv, hp⟩ := waitPass_outcome (w := w) hn hran (Option.isSome_of_mem hr) hrate
    cases hv.symm.trans e
    exact hp.reachesByCalls hl

/-- The length test of the commands with a payload, and the payload at hand (`43_frame_operations.md` R151). -/
theorem payload_reachesByCalls {len : BitVec 4} {k : List Byte → Out}
    (hk : ∀ p, k p = .next t → s.reachesByCalls t)
    (e : (if lenTooLong len then .next (s.raise .badLen 0#4) else withPayload len s k) = .next t) :
    s.reachesByCalls t := by
  split at e
  · cases e; exact s.reachesByCalls_endCommand .badLen 0#8 0#4 0#4
  · obtain ⟨p, _, _, e⟩ := withPayload_next e
    exact hk p e

theorem execCksum_reachesByCalls {len : BitVec 4} (e : execCksum len s = .next t) :
    s.reachesByCalls t := by
  obtain ⟨p, _, _, e⟩ := withPayload_next e
  cases e; exact s.reachesByCalls_endCommand .ok (checksum p) 0#4 0#4

theorem execVcksum_reachesByCalls {len : BitVec 4} (e : execVcksum len s = .next t) :
    s.reachesByCalls t := by
  unfold execVcksum at e
  split at e
  · cases e; exact s.reachesByCalls_endCommand .short 0#8 0#4 0#4
  · obtain ⟨p, _, _, e⟩ := withPayload_next e
    split at e <;> (cases e; exact s.reachesByCalls_endCommand _ _ 0#4 0#4)

theorem execValid_reachesByCalls {arg : Byte} (e : execValid arg s = .next t) : s.reachesByCalls t := by
  unfold execValid at e
  split at e <;> (cases e; exact s.reachesByCalls_endCommand _ _ 0#4 0#4)

variable (hn : s.noReset)
include hn

theorem execWbreak_reachesByCalls (e : execWbreak s = .next t) : s.reachesByCalls t := by
  obtain ⟨u, hu, hran, hrate, _⟩ := timeNow_ran hn
  rw [execWbreak, hu, Run.finish_going] at e
  exact waitPass_reachesByCalls hn hran hrate (by simp [Call.isLineCall]) e

/-- SLEEP makes its two line calls only with a control line. -/
theorem execSleep_reachesByCalls {arg : Byte} (e : execSleep arg s = .next t) : s.reachesByCalls t := by
  unfold execSleep at e
  split at e
  · next hs =>
    obtain ⟨u, hu, hf, _, henv, _⟩ := driveLine_ran (enterSleep arg) hn
    rw [hu] at e
    cases e
    exact ⟨_, congrArg State.trace hf, henv, fun h0 => absurd (h0.symm.trans hs) (by decide)⟩
  · cases e; exact s.reachesByCalls_endCommand .ok 0#8 0#4 0#4

theorem execWrite_reachesByCalls {len : BitVec 4} {arg : Byte} (e : execWrite len arg s = .next t) :
    s.reachesByCalls t :=
  payload_reachesByCalls (fun p e => (frame_madeOrAbandoned arg (p ++ [checksum p]) s).reachesByCalls_ended hn
    (noLineCalls_frame _ _ _) e) e

theorem execWrresp_reachesByCalls {len : BitVec 4} (e : execWrresp len s = .next t) :
    s.reachesByCalls t :=
  payload_reachesByCalls (fun p e => (chanWrites_madeOrAbandoned (p ++ [checksum p]) (Made.refl s)
    List.prefix_rfl).reachesByCalls_ended hn (noLineCalls_writes _) e) e

theorem execWrstrm_reachesByCalls {len : BitVec 4} (e : execWrstrm len s = .next t) :
    s.reachesByCalls t :=
  payload_reachesByCalls (fun p e => (frame_madeOrAbandoned s.ident p s).reachesByCalls_ended hn
    (noLineCalls_frame _ _ _) e) e

theorem execRead_reachesByCalls {len : BitVec 4} (e : execRead len s = .next t) : s.reachesByCalls t := by
  refine chanRead_reachesByCalls hn (fun bytes u e => ?_) e
  obtain ⟨st, v, hj, _⟩ := judgeRead_ended bytes (storeRead bytes u)
  cases e
  exact ⟨st, _, v, hj⟩

theorem execRdstrm_reachesByCalls {len : BitVec 4} (e : execRdstrm len s = .next t) :
    s.reachesByCalls t :=
  chanRead_reachesByCalls hn (fun bytes u e => by cases e; exact ⟨.ok, _, _, rfl⟩) e

/-- Every command that meets no reset. -/
theorem exec_reachesByCalls {i : Instr} (e : exec i s = .next t) : s.reachesByCalls t := by
  cases i with
  | cksum => exact execCksum_reachesByCalls e
  | vcksum => exact execVcksum_reachesByCalls e
  | genid => cases e; exact s.reachesByCalls_endCommand _ _ 0#4 0#4
  | valid => exact execValid_reachesByCalls e
  | brk =>
    exact (pulse_madeOrAbandoned _ _ (Made.refl s) List.prefix_rfl).reachesByCalls_ended hn
      (noLineCalls_pulse _ _) e
  | wbreak => exact execWbreak_reachesByCalls hn e
  | wakeup =>
    exact (pulse_madeOrAbandoned _ _ (Made.refl s) List.prefix_rfl).reachesByCalls_ended hn
      (noLineCalls_pulse _ _) e
  | sleep => exact execSleep_reachesByCalls hn e
  | write => exact execWrite_reachesByCalls hn e
  | wrreq _ arg =>
    exact (sendHeader_madeOrAbandoned arg (Made.refl s) List.prefix_rfl).reachesByCalls_ended hn
      (noLineCalls_header _ _) e
  | wrresp => exact execWrresp_reachesByCalls hn e
  | wrstrm => exact execWrstrm_reachesByCalls hn e
  | read => exact execRead_reachesByCalls hn e
  | rdstrm => exact execRdstrm_reachesByCalls hn e
  | setid => cases e; exact (s.setIdent _).reachesByCalls_endCommand .ok 0#8 0#4 0#4
  | reservedF => cases e; exact s.reachesByCalls_endCommand _ _ 0#4 0#4

end Commands

/-- Settles O51, from what the calls of every command leave of the environment. -/
theorem bytesLeaveInQueueOrder : Obligations.BytesLeaveInQueueOrder := by
  intro i s t hn e
  obtain ⟨cs, ht, ⟨hw, hb, _, _⟩, _⟩ := exec_reachesByCalls hn e
  exact ⟨cs, ht, hw, hb⟩

/-! ### Without a control line -/

/-- A move of the environment makes no call and loses no byte (`20_memory.md` R48). -/
theorem applyMove_reachesByCalls (m : Move) (s : State) : s.reachesByCalls (applyMove m s) := by
  have d := applyMove_drift m s
  obtain ⟨hw, hb⟩ := d.conserves
  refine ⟨[], ?_, ⟨hw, by simpa [bytesWritten] using hb, d.now, d.during⟩, fun _ => noLineCalls_nil⟩
  rw [d.frame, List.append_nil]

/-- A step while a WBREAK is in progress is a pass of its loop, a refusal, a move of the environment or a reset. -/
theorem step_waiting_reachesByCalls {s t : State} {w : Wait} (hn : s.noReset) (hw : s.waiting = some w)
    (ha : ∀ st rest, s.agenda ≠ .reset st :: rest) (e : step s = .next t) : s.reachesByCalls t := by
  have pass (hs : step s = waitPass w s) : s.reachesByCalls t :=
    waitPass_reachesByCalls hn (Ran.refl s) rfl noLineCalls_nil (hs.symm.trans e)
  match h : s.agenda with
  | [] => exact pass (step_waiting hw (.inl h))
  | .command cw :: rest => exact pass (step_waiting hw (.inr (.inl ⟨cw, rest, h⟩)))
  | .regRead n :: rest => exact pass (step_waiting hw (.inr (.inr (.inl ⟨n, rest, h⟩))))
  | .regWrite n v :: rest => exact pass (step_waiting hw (.inr (.inr (.inr ⟨n, v, rest, h⟩))))
  | .reset st :: rest => exact absurd h (ha st rest)
  | .openChannel r :: rest => rw [step_openChannel_of_waiting hw h] at e; cases e
  | .move m :: rest =>
    rw [step_move h] at e
    cases e
    exact applyMove_reachesByCalls m { s with agenda := rest }

/-- After a reset the trace holds the calls of CFGSLP alone (`70_reset_and_hazards.md` R212). -/
theorem applyReset_trace {st : Straps} {s t : State} (h : applyReset st s = .next t) :
    t.trace = if st.pHasSlp then [.lineSetMode .output, .lineWrite .low] else [] := by
  unfold applyReset at h
  split at h
  · rw [resetSequence_eq] at h; cases h; rfl
  · cases h

/-- Settles O29: a command, a step of a WBREAK, and a reset, which makes its two line calls only with a control
line. -/
theorem noLineCallWithoutLine : Obligations.NoLineCallWithoutLine := by
  refine ⟨fun i s t h0 hn e => ?_, fun s t w h0 hn hw ha e => ?_, fun s t st rest ha h0 e => ?_⟩
  · obtain ⟨cs, ht, _, hl⟩ := exec_reachesByCalls hn e
    exact ⟨cs, ht, hl h0⟩
  · obtain ⟨cs, ht, _, hl⟩ := step_waiting_reachesByCalls hn hw ha e
    exact ⟨cs, ht, hl h0⟩
  · rw [step_reset ha] at e
    rw [applyReset_trace e, h0]
    exact List.forall_mem_nil _

end Sys2Proof.Machine

/-! Proofs of the statements about the encoding (`30_encoding.md`). -/

namespace Sys2Proof

/-! ### The fields of a word, as numbers -/

theorem cwOp_toNat (w : CmdWord) : (cwOp w).toNat = w.toNat / 4096 := by
  rw [cwOp, BitVec.extractLsb'_toNat, Nat.shiftRight_eq_div_pow]
  omega

theorem cwLen_toNat (w : CmdWord) : (cwLen w).toNat = w.toNat / 256 % 16 := by
  rw [cwLen, BitVec.extractLsb'_toNat, Nat.shiftRight_eq_div_pow]

theorem cwArg_toNat (w : CmdWord) : (cwArg w).toNat = w.toNat % 256 := by
  rw [cwArg, BitVec.extractLsb'_toNat, Nat.shiftRight_zero]

/-- The three fields are the whole word (`30_encoding.md` R80). -/
theorem word_of_fields (w : CmdWord) : cwOp w ++ cwLen w ++ cwArg w = w := by
  apply BitVec.eq_of_toNat_eq
  rw [word_toNat, cwOp_toNat, cwLen_toNat, cwArg_toNat]
  omega

/-! ### The opcode map and the fields of a command -/

/-- The opcode map gives back the command whose fields it is given (`30_encoding.md` R82). -/
theorem instrOf_fields (i : Instr) : instrOf i.op i.len i.arg = i := by
  cases i <;> rfl

/-- The command selected by an opcode has this opcode and the fields given (`30_encoding.md` R82). -/
theorem fields_instrOf (op len : BitVec 4) (arg : Byte) :
    (instrOf op len arg).op = op ∧ (instrOf op len arg).len = len ∧ (instrOf op len arg).arg = arg := by
  obtain ⟨n, hn⟩ := op
  match n, hn with
  | 0, _ | 1, _ | 2, _ | 3, _ | 4, _ | 5, _ | 6, _ | 7, _ | 8, _ | 9, _ | 10, _ | 11, _ | 12, _ | 13, _
  | 14, _ | 15, _ => exact ⟨rfl, rfl, rfl⟩
  | k + 16, hk => omega

/-- The command of a word has the three fields of the word (`30_encoding.md` R81, R87). -/
theorem fields_decodeWord (w : CmdWord) :
    (decodeWord w).op = cwOp w ∧ (decodeWord w).len = cwLen w ∧ (decodeWord w).arg = cwArg w :=
  fields_instrOf ..

/-- Settles O1: the word of a command has its three fields, from which the opcode map gives it back. -/
theorem decodeOfEncodeIsIdentity : Obligations.DecodeOfEncodeIsIdentity := fun i => by
  rw [decodeWord, encode, cwOp_word, cwLen_word, cwArg_word, instrOf_fields]

/-- Settles O2: the command of a word has its three fields, and these are the whole word. -/
theorem encodeOfDecodeIsIdentity : Obligations.EncodeOfDecodeIsIdentity := fun w => by
  obtain ⟨hop, hlen, harg⟩ := fields_decodeWord w
  rw [encode, hop, hlen, harg, word_of_fields]

/-- Settles O3: the fields of the decoded command are those of the word, read as numbers. -/
theorem opcodeFieldsSelectCommand : Obligations.OpcodeFieldsSelectCommand := fun w => by
  obtain ⟨hop, hlen, harg⟩ := fields_decodeWord w
  exact ⟨hop ▸ cwOp_toNat w, hlen ▸ cwLen_toNat w, harg ▸ cwArg_toNat w⟩

/-- Settles O4, by running the decoder on the words. -/
theorem writtenOutWordsDecode : Obligations.WrittenOutWordsDecode := by
  unfold Obligations.WrittenOutWordsDecode
  decide

end Sys2Proof

namespace Sys2Proof.Machine

/-! ### Fields without effect, and the reserved opcode -/

/-- GENID takes ARG[5:0] alone (`40_frame_codec.md` R106). -/
theorem genIdentifier_of_mod {a b : Byte} (h : a.toNat % 64 = b.toNat % 64) :
    genIdentifier a = genIdentifier b := by
  have masked : a &&& 0x3F#8 = b &&& 0x3F#8 := by
    apply BitVec.eq_of_toNat_eq
    rw [BitVec.toNat_and, BitVec.toNat_and]
    exact (Nat.and_two_pow_sub_one_eq_mod _ 6).trans (h.trans (Nat.and_two_pow_sub_one_eq_mod _ 6).symm)
  simp only [genIdentifier, masked]

/-- SLEEP takes ARG[0] alone (`42_transceiver_control.md` R143). -/
theorem enterSleep_of_mod {a b : Byte} (h : a.toNat % 2 = b.toNat % 2) : enterSleep a = enterSleep b := by
  rw [enterSleep_eq, enterSleep_eq, h]

/-- Settles O5: the meaning of a command is not given the fields it does not use; GENID and SLEEP are given ARG, and
take only the bits that R82 names. -/
theorem ignoredFieldsHaveNoEffect : Obligations.IgnoredFieldsHaveNoEffect := by
  intro l l' a a' s
  refine ⟨rfl, rfl, fun h => ?genid, rfl, rfl, rfl, rfl, fun h => ?sleep, rfl, rfl, rfl, rfl, rfl, rfl, rfl⟩
  case genid => simp only [exec, execGenid, genIdentifier_of_mod h]
  case sleep => simp only [exec, execSleep, enterSleep_of_mod h]

/-- A word with OP = 0xF is the reserved command (`30_encoding.md` R84). -/
theorem decodeWord_reserved {w : CmdWord} (h : w.toNat / 4096 = 15) :
    decodeWord w = .reservedF (cwLen w) (cwArg w) := by
  have hop : cwOp w = 0xF#4 := BitVec.eq_of_toNat_eq ((cwOp_toNat w).trans h)
  rw [decodeWord, hop]; rfl

/-- Settles O18: what the reserved command does, and that every word with OP = 0xF is one. -/
theorem reservedOpcodeIsIllegal : Obligations.ReservedOpcodeIsIllegal :=
  ⟨fun _ _ _ => rfl, fun w s h => ⟨⟨cwLen w, cwArg w, decodeWord_reserved h⟩, by
    rw [decodeWord_reserved h]; rfl⟩⟩

/-! ### Whole frames on the wire -/

/-- A header and then bytes, from an empty queue (`43_frame_operations.md` R150, `20_memory.md` R48): the break is
followed at BAUD by the first of sync, identifier and bytes; the rest of them are still queued. -/
theorem frame_onWire {s : State} (id : Byte) (p : List Byte) (hn : s.noReset) (he : s.chan.txq = []) :
    ∃ t sent, endTransmit ((sendHeader id s).bind fun _ u => chanWrites p u) = .next t ∧
      [0x55#8, id] ++ p = sent ++ t.chan.txq ∧
      t.wire = s.wire ++ stamped (s.baud / 2#32) [0x00#8] ++ stamped s.baud sent := by
  obtain ⟨u, eu, ran, rate, header⟩ := sendHeader_ran id hn
  obtain ⟨a, ha, wa⟩ := header he
  obtain ⟨t, b, et, _, _, hb, wb⟩ := chanWrites_ran p (ran.noReset hn) rate
  refine ⟨t.endCommand .ok 0#8 0#4 0#4, a ++ b, ?_, ?_, ?_⟩
  · rw [eu, Run.bind_going, et]; rfl
  · rw [ha, List.append_assoc, hb, List.append_assoc]; rfl
  · rw [State.endCommand_wire, wb, wa]; simp [stamped]

/-- LEN up to MAX_PAYLOAD is not too long (`43_frame_operations.md` R151). -/
theorem lenTooLong_of_le {len : BitVec 4} (h : len.toNat ≤ 8) : lenTooLong len = false :=
  decide_eq_false (Nat.not_lt.2 h)

/-- WRITE of the bytes BUF holds sends a header, the bytes and their checksum (`43_frame_operations.md` R152). -/
theorem execWrite_holds {len : BitVec 4} {p : List Byte} {s : State} (arg : Byte) (h8 : len.toNat ≤ 8)
    (hl : p.length = len.toNat) (hp : s.holds p) : execWrite len arg s =
      endTransmit ((sendHeader arg s).bind fun _ u => chanWrites (p ++ [checksum p]) u) := by
  simp only [execWrite, lenTooLong_of_le h8, withPayload_holds hl hp, Bool.false_eq_true, if_false]

/-- WRSTRM of the bytes BUF holds sends a header with IDENT and the bytes (`43_frame_operations.md` R162). -/
theorem execWrstrm_holds {len : BitVec 4} {p : List Byte} {s : State} (h8 : len.toNat ≤ 8)
    (hl : p.length = len.toNat) (hp : s.holds p) : execWrstrm len s =
      endTransmit ((sendHeader s.ident s).bind fun _ u => chanWrites p u) := by
  simp only [execWrstrm, lenTooLong_of_le h8, withPayload_holds hl hp, Bool.false_eq_true, if_false]

/-- Settles O34: WRREQ is a header; WRITE and WRSTRM are a header and the bytes that follow it. -/
theorem framesOnTheWire : Obligations.FramesOnTheWire := by
  refine ⟨fun len arg s hn he => ?_, fun len arg p s hn he h8 hl hp => ⟨?_, ?_⟩⟩
  · obtain ⟨t, e, _, _, header⟩ := sendHeader_ran arg hn
    obtain ⟨sent, hq, hw⟩ := header he
    exact ⟨t.endCommand .ok 0#8 0#4 0#4, sent, by rw [exec, execWrreq, e]; rfl, hq, hw⟩
  · rw [exec, execWrite_holds arg h8 hl hp, List.append_assoc]
    exact frame_onWire arg (p ++ [checksum p]) hn he
  · rw [exec, execWrstrm_holds h8 hl hp]
    exact frame_onWire s.ident p hn he

end Sys2Proof.Machine

/-! Proofs of the statements about the Frame Codec (`40_frame_codec.md`). -/

namespace Sys2Proof.Machine

/-! ### The checksum -/

/-- Adding bytes one by one adds their values modulo 256: by induction on the bytes, for every start value. -/
theorem foldl_add_toNat (p : List Byte) (a : Byte) :
    (p.foldl (· + ·) a).toNat = (a.toNat + (p.map BitVec.toNat).sum) % 256 := by
  induction p generalizing a with
  | nil => exact (Nat.mod_eq_of_lt a.isLt).symm
  | cons b p ih =>
    rw [List.foldl_cons, ih, BitVec.toNat_add, List.map_cons, List.sum_cons]
    omega

theorem byteSum_toNat (p : List Byte) : (byteSum p).toNat = (p.map BitVec.toNat).sum % 256 := by
  rw [byteSum, foldl_add_toNat, BitVec.toNat_ofNat, Nat.zero_mod, Nat.zero_add]

theorem checksum_toNat (p : List Byte) : (checksum p).toNat = 255 - (p.map BitVec.toNat).sum % 256 := by
  rw [checksum, BitVec.toNat_not, byteSum_toNat]

theorem checksum_eq_ofNat (p : List Byte) :
    checksum p = BitVec.ofNat 8 (255 - (p.map BitVec.toNat).sum % 256) := by
  rw [← checksum_toNat, BitVec.ofNat_toNat, BitVec.setWidth_eq]

/-- The validity test compares the last byte with the checksum of the earlier ones (`40_frame_codec.md` R103). -/
theorem checksumValid_concat (p : List Byte) (c : Byte) :
    checksumValid (p ++ [c]) = some (checksum p == c) := by
  rw [checksumValid, List.getLast?_concat, List.dropLast_concat]

/-- Settles O10, by the value of the byte sum. -/
theorem checksumIsInvertedSum : Obligations.ChecksumIsInvertedSum := ⟨checksum_toNat, rfl⟩

/-- Settles O13: CKSUM reads the bytes BUF holds and answers their checksum. -/
theorem cksumCompletes : Obligations.CksumCompletes := fun len arg p s hl hp => by
  rw [exec, execCksum, withPayload_holds hl hp, checksum_eq_ofNat]
  rfl

/-- VCKSUM of the bytes BUF holds, the last of which is taken for the checksum of the others
(`40_frame_codec.md` R104). -/
theorem execVcksum_holds {len : BitVec 4} {p : List Byte} {c : Byte} {s : State} (hl : p.length + 1 = len.toNat)
    (hp : s.holds (p ++ [c])) : execVcksum len s =
      .next (if c = checksum p then s.endCommand .ok 1#8 0#4 0#4 else s.raise .checksum 0#4) := by
  have nonempty : len ≠ 0#4 := by rintro rfl; exact Nat.succ_ne_zero _ hl
  have whole : (p ++ [c]).length = len.toNat := by rw [List.length_append]; exact hl
  rw [execVcksum, if_neg nonempty, withPayload_holds whole hp, checksumValid_concat]
  by_cases hc : c = checksum p
  · rw [if_pos hc, beq_iff_eq.2 hc.symm]; rfl
  · rw [if_neg hc, beq_eq_false_iff_ne.2 (Ne.symm hc)]

/-- Settles O14: LEN = 0 is the length error; otherwise the last byte is compared with the checksum of the others. -/
theorem vcksumAcceptsExactlyTheChecksum : Obligations.VcksumAcceptsExactlyTheChecksum := by
  refine fun arg s => ⟨rfl, fun len p c hl hp => ?_⟩
  rw [exec, execVcksum_holds hl hp]
  split <;> rfl

/-! ### The identifier byte -/

@[simp] theorem boolRes_getElem_zero (b : Bool) : (boolRes b)[0] = b := by
  cases b <;> rfl

@[simp] theorem boolRes_getElem_one (b : Bool) : (boolRes b)[1] = false := by
  cases b <;> rfl

/-- Each parity bit is one exclusive or of four address bits (`40_frame_codec.md` R105); parity1 is inverted. -/
theorem parity0_eq (v : Byte) :
    parity0 v = (v.getLsbD 0 ^^ v.getLsbD 1 ^^ v.getLsbD 2 ^^ v.getLsbD 4) :=
  (Bool.xor_assoc ..).symm

theorem parity1_eq (v : Byte) :
    parity1 v = !(v.getLsbD 1 ^^ v.getLsbD 3 ^^ v.getLsbD 4 ^^ v.getLsbD 5) :=
  congrArg _ (Bool.xor_assoc ..).symm

/-- The parity bits are taken of bits 5:0 alone. -/
@[simp] theorem parity0_address (v : Byte) : parity0 (v &&& 0x3F#8) = parity0 v := by
  simp [parity0]

@[simp] theorem parity1_address (v : Byte) : parity1 (v &&& 0x3F#8) = parity1 v := by
  simp [parity1]

/-- Bits 7:6 of the operand are discarded (`40_frame_codec.md` R106). -/
theorem genIdentifier_address (v : Byte) : genIdentifier (v &&& 0x3F#8) = genIdentifier v := by
  simp [genIdentifier, BitVec.and_assoc]

/-- Bits 5:0 of an identifier byte are the address: the mask keeps them, and the parity bits stand above them. -/
theorem genIdentifier_getLsbD_address (v : Byte) {j : Nat} (h : j < 6) :
    (genIdentifier v).getLsbD j = v.getLsbD j := by
  have mask : ∀ k < 6, (0x3F#8).getLsbD k = true := by decide
  simp [genIdentifier, h, mask j h]

/-- Bit 6 of an identifier byte is parity0, bit 7 is parity1 (`40_frame_codec.md` R106). -/
theorem genIdentifier_getLsbD_six (v : Byte) : (genIdentifier v).getLsbD 6 =
    (v.getLsbD 0 ^^ v.getLsbD 1 ^^ v.getLsbD 2 ^^ v.getLsbD 4) := by
  rw [← parity0_eq]
  simp [genIdentifier]

theorem genIdentifier_getLsbD_seven (v : Byte) : (genIdentifier v).getLsbD 7 =
    !(v.getLsbD 1 ^^ v.getLsbD 3 ^^ v.getLsbD 4 ^^ v.getLsbD 5) := by
  rw [← parity1_eq]
  simp [genIdentifier]

/-- The address is not changed: an identifier byte and its operand agree modulo 64. -/
theorem genIdentifier_mod (v : Byte) : (genIdentifier v).toNat % 64 = v.toNat % 64 := by
  have low : (genIdentifier v).setWidth 6 = v.setWidth 6 := by
    apply BitVec.eq_of_getLsbD_eq
    intro j hj
    rw [BitVec.getLsbD_setWidth, BitVec.getLsbD_setWidth, genIdentifier_getLsbD_address v hj]
  have values := congrArg BitVec.toNat low
  rwa [BitVec.toNat_setWidth, BitVec.toNat_setWidth] at values

/-- An identifier byte is its own identifier byte: its address is that of its operand. -/
theorem genIdentifier_idempotent (v : Byte) : genIdentifier (genIdentifier v) = genIdentifier v :=
  genIdentifier_of_mod (genIdentifier_mod v)

/-- Settles O11: the identifier byte bit by bit; it is taken of bits 5:0 alone. -/
theorem genIdentifierPacksParity : Obligations.GenIdentifierPacksParity := fun v =>
  ⟨fun _ => genIdentifier_getLsbD_address v, genIdentifier_getLsbD_six v, genIdentifier_getLsbD_seven v,
    (genIdentifier_address v).symm⟩

/-- Settles O12: the address is read back from the identifier byte, and a fixed point is the result of its own
address. -/
theorem wellFormedIdentifiersAreFixedPoints : Obligations.WellFormedIdentifiersAreFixedPoints := by
  refine ⟨fun a b ha hb h => BitVec.eq_of_toNat_eq ?_, fun b => ⟨?_, fun fixed => ?_⟩⟩
  · have addresses : a.toNat % 64 = b.toNat % 64 := by
      rw [← genIdentifier_mod a, h, genIdentifier_mod b]
    rwa [Nat.mod_eq_of_lt ha, Nat.mod_eq_of_lt hb] at addresses
  · rintro ⟨a, -, rfl⟩
    exact genIdentifier_idempotent a
  · have small : (b &&& 0x3F#8).toNat < 2 ^ 6 := by
      rw [BitVec.toNat_and]
      exact Nat.and_lt_two_pow _ (by decide)
    exact ⟨b &&& 0x3F#8, small, (genIdentifier_address b).trans fixed⟩

/-- Settles O15: GENID answers the identifier byte of ARG. -/
theorem genidCompletes : Obligations.GenidCompletes := fun _ arg _ =>
  ⟨genIdentifier arg, rfl, genIdentifier_mod arg, genIdentifier_getLsbD_six arg, genIdentifier_getLsbD_seven arg⟩

/-! ### IDENT -/

/-- VALID by whether ARG is IDENT (`40_frame_codec.md` R109, R110). -/
theorem execValid_eq (arg : Byte) (s : State) : execValid arg s =
    .next (if arg = s.ident then s.endCommand .ok 1#8 0#4 0#4 else s.raise .ident 0#4) := by
  simp only [execValid, identifierValid, beq_iff_eq]
  split <;> rfl

/-- Settles O16, by the two ends of VALID. -/
theorem validCompletes : Obligations.ValidCompletes := fun _ arg s => by
  rw [exec, execValid_eq]
  split <;> rfl

/-- Settles O17: SETID replaces IDENT and ends the command. -/
theorem setidCompletes : Obligations.SetidCompletes := fun _ _ _ => rfl

end Sys2Proof.Machine

/-! Proofs of the statements about Bus Signaling (`41_bus_signaling.md`). -/

namespace Sys2Proof.Machine

open Sys2Proof.Config

/-! ### BREAK and WAKEUP -/

/-- A pulse and then the end of the command, which is what BREAK and WAKEUP are (`41_bus_signaling.md` R120). -/
theorem pulse_completes {s : State} (lowered normal : Rate) (hn : s.noReset) :
    ∃ t, (pulse lowered normal s).finish (fun _ u => .next (u.endCommand .ok 0#8 0#4 0#4)) = .next t ∧
      s.endedAs t .ok 0#8 0#4 0#4 (pulseCalls lowered normal) ∧ s.envKept t (pulseCalls lowered normal) ∧
      t.chan.rate = some normal ∧ t.chan.txq = [] ∧
      (∃ w, s.wire <+: w ∧ t.wire = w ++ [{ byte := 0x00#8, rate := lowered }]) ∧
      (s.chan.txq = [] → t.wire = s.wire ++ [{ byte := 0x00#8, rate := lowered }]) := by
  obtain ⟨u, e, ran, rate, queue, wire, wire_of_empty⟩ := pulse_ran lowered normal hn
  refine ⟨u.endCommand .ok 0#8 0#4 0#4, by rw [e, Run.finish_going], ?_, ⟨ran.env, ran.rx⟩, rate, queue,
    wire, wire_of_empty⟩
  rw [ran.frame]
  rfl

/-- Settles O19: a break is the pulse at half of BAUD. -/
theorem breakCompletes : Obligations.BreakCompletes := fun _ _ s hn =>
  pulse_completes (halfRate s.baud) s.baud hn

/-- Settles O20: a wake-up is the pulse at WAKE_BAUD. -/
theorem wakeupCompletes : Obligations.WakeupCompletes := fun _ _ s hn =>
  pulse_completes s.params.wakeBaud s.baud hn

/-- Half of a legal BAUD is a rate at which a zero byte is a break (`41_bus_signaling.md` R122, D8). -/
theorem breakLongEnough_half {baud : Rate} (h : 2 ≤ baud.toNat) :
    0 < (baud / 2#32).toNat ∧ breakLongEnough (baud / 2#32) baud := by
  have half : (baud / 2#32).toNat = baud.toNat / 2 := BitVec.toNat_udiv
  simp only [breakLongEnough, half, breakMinBits, zeroByteLowBits]
  omega

/-- Every WAKE_BAUD of `00_scope.md` R5 is a rate at which a zero byte is a wake-up pulse. -/
theorem wakePulseInWindow_of_valid {p : Params} (h : p.valid) : wakePulseInWindow p.wakeBaud := by
  obtain ⟨low, high⟩ := h
  simp only [wakePulseInWindow, tWakeMin, tWakeMax, zeroByteLowBits]
  omega

/-- Settles O21: the zero byte that each command leaves last on the wire, and its length at that rate. -/
theorem pulsesHaveTheirLength : Obligations.PulsesHaveTheirLength := by
  intro len arg s hn hb hp
  obtain ⟨t, e, -, -, -, -, ⟨w, -, wire⟩, -⟩ := breakCompletes len arg s hn
  obtain ⟨t', e', -, -, -, -, ⟨w', -, wire'⟩, -⟩ := wakeupCompletes len arg s hn
  obtain ⟨pos, long⟩ := breakLongEnough_half hb
  exact ⟨⟨t, w, _, e, wire, pos, long⟩, ⟨t', w', _, e', wire', wakePulseInWindow_of_valid hp⟩⟩

/-! ### The first pass of WBREAK -/

/-- Settles O22: the clock is read, and the pass after it has the outcomes of `waitPass_outcome`. -/
theorem wbreakMakesItsFirstPass : Obligations.WbreakMakesItsFirstPass := by
  intro len arg s hn ho
  obtain ⟨u, e, ran, rate, later⟩ := timeNow_ran hn
  obtain ⟨t, ht, outcome⟩ := waitPass_outcome (w := { budget := s.timeout, t0 := u.now }) hn ran
    (show u.chan.rate.isSome = true by rw [rate]; exact ho) rate
  refine ⟨t, u.now, ?_, later, outcome⟩
  have same : u.timeout = s.timeout := by rw [ran.frame]
  rw [exec, execWbreak, e, Run.finish_going, same, ht]

/-- A budget of 0 is a finite one (`10_state.md` R18). -/
theorem zero_ne_tMax : 0#32 ≠ tMax := by decide

/-- Settles O24: of the four outcomes of a pass, the two that go on waiting need a budget above 0. -/
theorem wbreakWithZeroTimeoutEnds : Obligations.WbreakWithZeroTimeoutEnds := by
  intro len arg s hn ho hz
  obtain ⟨t, t0, e, -, -, outcome⟩ := wbreakMakesItsFirstPass len arg s hn ho
  refine ⟨t, t0, e, ?_⟩
  rw [hz] at outcome
  obtain ⟨hf, -⟩ | ⟨unlimited, -⟩ | ⟨-, t1, -, hf, -⟩ | ⟨-, t1, below, -⟩ := outcome
  · exact ⟨congrArg State.waiting hf,
      .inl ⟨congrArg State.trace hf, congrArg State.status hf, congrArg State.res hf⟩⟩
  · exact absurd unlimited zero_ne_tMax
  · exact ⟨congrArg State.waiting hf,
      .inr ⟨t1, congrArg State.trace hf, congrArg State.status hf, congrArg State.res hf⟩⟩
  · exact absurd below (Nat.not_lt_zero _)

/-! ### A pass of WBREAK's loop, by the sample and the time test -/

/-- A sample of 1 ends the command (`41_bus_signaling.md` R124). -/
theorem waitPass_of_asserted {s u : State} {w : Wait} (h : chanPollFE s = .going true u) :
    waitPass w s = .next (u.endCommand .ok 1#8 0#4 0#4) := by
  rw [waitPass, h]
  rfl

/-- After a sample of 0 the time is tested. -/
theorem waitPass_of_clear {s u : State} {w : Wait} (h : chanPollFE s = .going false u) :
    waitPass w s = waitTimeTest w u := by
  rw [waitPass, h]
  rfl

/-- With T = T_MAX the time is not tested (`10_state.md` R18). -/
theorem waitTimeTest_of_unlimited {s : State} {w : Wait} (h : w.budget = tMax) :
    waitTimeTest w s = .next (s.keepWaiting w) :=
  if_pos h

/-- With a finite budget the clock is read and compared. -/
theorem waitTimeTest_of_finite {s u : State} {w : Wait} {now : Nat} (h : w.budget ≠ tMax)
    (hu : timeNow s = .going now u) :
    waitTimeTest w s =
      .next (if w.budget.toNat ≤ now - w.t0 then u.raise .timeout 0#4 else u.keepWaiting w) := by
  rw [waitTimeTest, if_neg h, hu, Run.finish_going]
  split <;> rfl

/-- With no gap left no agent moves before a call (log 2). -/
theorem enterCall_of_quiet {s : State} (hd : s.during = []) : enterCall s = .going () s := by
  rw [enterCall, hd]

theorem timeNow_of_quiet {s : State} (hd : s.during = []) :
    timeNow s = .going s.now (s.logged (.timeNow s.now)) := by
  rw [timeNow, enterCall_of_quiet hd, Run.bind_going]

theorem chanPollFE_of_quiet {s : State} {fe : Bool} (hd : s.during = []) (ho : s.channelOpen)
    (hf : s.chan.fe = fe) : chanPollFE s = .going fe (s.logged (.chanPollFE fe)) := by
  obtain ⟨r, hr⟩ := Option.isSome_iff_exists.1 ho
  rw [chanPollFE, enterCall_of_quiet hd, Run.bind_going, needRate_some hr, Run.bind_going, hf]

/-- WBREAK when no agent moves: the clock, then one pass (`41_bus_signaling.md` R124). -/
theorem execWbreak_of_quiet {s : State} (hd : s.during = []) : execWbreak s =
    waitPass { budget := s.timeout, t0 := s.now } (s.logged (.timeNow s.now)) := by
  rw [execWbreak, timeNow_of_quiet hd, Run.finish_going]
  rfl

/-- Settles O23, by the sample and the time test: no time passes between the two clock readings, so a finite budget is
used up exactly when it is 0. -/
theorem wbreakInQuietEnvironment : Obligations.WbreakInQuietEnvironment := by
  intro len arg s hd ho
  rw [exec, execWbreak_of_quiet hd]
  have sampled {fe : Bool} (hf : s.chan.fe = fe) :=
    chanPollFE_of_quiet (s := s.logged (.timeNow s.now)) hd ho hf
  have read := timeNow_of_quiet (s := (s.logged (.timeNow s.now)).logged (.chanPollFE false)) hd
  refine ⟨fun hf => ?_, fun hf h0 => ?_, fun hf hm => ?_, fun hf h0 hm => ?_⟩
  · rw [waitPass_of_asserted (sampled hf)]
    simp [State.endCommand, State.logged, Status.code]
  · rw [waitPass_of_clear (sampled hf), waitTimeTest_of_finite (h0 ▸ zero_ne_tMax) read]
    simp [h0, State.raise, State.endCommand, State.logged, Status.code]
  · rw [waitPass_of_clear (sampled hf), waitTimeTest_of_unlimited hm]
    simp [hm, State.keepWaiting, State.logged]
  · have pos : 0 < s.timeout.toNat := Nat.pos_of_ne_zero fun h => h0 (BitVec.eq_of_toNat_eq h)
    rw [waitPass_of_clear (sampled hf), waitTimeTest_of_finite hm read, if_neg (by simp; omega)]
    simp [State.keepWaiting, State.logged]

/-! ### The unlimited wait -/

/-- A signal that is 0 stays 0 through a move that does not assert it (`20_memory.md` R47). -/
theorem applyMove_fe_clear {m : Move} {s : State} (hm : m ≠ .signal true) (hf : s.chan.fe = false) :
    (applyMove m s).chan.fe = false := by
  cases m with
  | send =>
    simp only [applyMove, adapterSend]
    split <;> exact hf
  | receive p => exact hf
  | signal b => simpa [applyMove] using hm
  | elapse n => exact hf

theorem applyMoves_fe_clear {ms : List Move} {s : State} (hm : Move.signal true ∉ ms)
    (hf : s.chan.fe = false) : (applyMoves ms s).chan.fe = false := by
  induction ms generalizing s with
  | nil => exact hf
  | cons m ms ih =>
    exact ih (List.not_mem_of_not_mem_cons hm)
      (applyMove_fe_clear (List.ne_of_not_mem_cons hm).symm hf)

/-- Where no move still to come inside a command asserts the signal, it is 0 at the next call. -/
theorem enterCall_fe_clear {s u : State} (hm : ∀ g ∈ s.during, Move.signal true ∉ g.moves)
    (hf : s.chan.fe = false) (e : enterCall s = .going () u) : u.chan.fe = false := by
  unfold enterCall at e
  split at e
  · cases e; exact hf
  · next g rest hg =>
    split at e
    · cases e
      exact applyMoves_fe_clear (s := { s with during := rest }) (hm g (hg ▸ List.mem_cons_self)) hf
    · cases e

/-- A WBREAK in progress with T = T_MAX on an open channel, the signal 0, and nothing to come that would assert the
signal, reset the block or open the channel: what every step of the unlimited wait keeps. -/
structure State.Hangs (w : Wait) (s : State) : Prop where
  waiting : s.waiting = some w
  unlimited : w.budget = tMax
  clear : s.chan.fe = false
  channelOpen : s.channelOpen
  noReset : s.noReset
  moves : ∀ g ∈ s.during, Move.signal true ∉ g.moves
  agenda : ∀ a ∈ s.agenda, a ≠ .move (.signal true) ∧ (∀ st, a ≠ .reset st) ∧ ∀ r, a ≠ .openChannel r

theorem State.Hangs.drift {w : Wait} {n : Nat} {s t : State} (h : s.Hangs w) (d : Drift n s t)
    (hf : t.chan.fe = false) : t.Hangs w where
  waiting := (congrArg State.waiting d.frame).trans h.waiting
  unlimited := h.unlimited
  clear := hf
  channelOpen := (congrArg Option.isSome d.rate).trans h.channelOpen
  noReset := State.noReset_drop h.noReset d.during
  moves g hg := h.moves g (List.mem_of_mem_drop (d.during ▸ hg))
  agenda a ha := h.agenda a ((congrArg State.agenda d.frame) ▸ ha)

theorem State.Hangs.logged {w : Wait} {s : State} (h : s.Hangs w) (c : Call) : (s.logged c).Hangs w :=
  ⟨h.waiting, h.unlimited, h.clear, h.channelOpen, h.noReset, h.moves, h.agenda⟩

/-- What stands behind the head of the agenda is no less harmless. -/
theorem State.Hangs.tail {w : Wait} {s : State} {a : Action} {rest : List Action} (h : s.Hangs w)
    (ha : s.agenda = a :: rest) : State.Hangs w { s with agenda := rest } :=
  ⟨h.waiting, h.unlimited, h.clear, h.channelOpen, h.noReset, h.moves,
    fun b hb => h.agenda b (ha ▸ List.mem_cons_of_mem a hb)⟩

/-- `t` is `s` after `k` steps of which `polls` took a sample of 0 and each of the others an action off the agenda; no
register has changed, and with no agent acting the samples are all that happened. -/
structure Polled (k polls : Nat) (s t : State) : Prop where
  atMost : polls ≤ k
  atLeast : k + t.agenda.length ≤ polls + s.agenda.length
  frame : t = { s with
    trace := s.trace ++ List.replicate polls (.chanPollFE false), agenda := t.agenda,
    chan := t.chan, wire := t.wire, now := t.now, during := t.during }
  agenda : t.agenda <:+ s.agenda
  alone : s.agenda = [] → s.during = [] →
    t = { s with trace := s.trace ++ List.replicate polls (.chanPollFE false) }

theorem Polled.refl (s : State) : Polled 0 0 s s where
  atMost := Nat.le_refl 0
  atLeast := Nat.le_refl _
  frame := by simp
  agenda := List.suffix_rfl
  alone _ _ := by simp

theorem Polled.trans {k l p q : Nat} {s t u : State} (h : Polled k p s t) (j : Polled l q t u) :
    Polled (k + l) (p + q) s u where
  atMost := Nat.add_le_add h.atMost j.atMost
  atLeast := by
    have := h.atLeast
    have := j.atLeast
    omega
  frame := by
    rw [j.frame, h.frame]
    simp
  agenda := j.agenda.trans h.agenda
  alone ha hd := by
    have ht := h.alone ha hd
    rw [j.alone (by rw [ht]; exact ha) (by rw [ht]; exact hd), ht]
    simp

/-- A WBREAK that is in progress stays so. -/
theorem State.keepWaiting_of_waiting {s : State} {w : Wait} (h : s.waiting = some w) :
    s.keepWaiting w = s := by
  rw [State.keepWaiting, ← h]

/-- A pass of the unlimited wait is one more sample of 0. -/
theorem State.Hangs.waitPass {w : Wait} {s : State} (h : s.Hangs w) :
    ∃ t, Machine.waitPass w s = .next t ∧ t.Hangs w ∧ Polled 1 1 s t := by
  obtain ⟨u, e, d⟩ := enterCall_going h.noReset
  obtain ⟨r, hr⟩ := Option.isSome_iff_exists.1 h.channelOpen
  have clear : u.chan.fe = false := enterCall_fe_clear h.moves h.clear e
  have sampled : chanPollFE s = .going false (u.logged (.chanPollFE false)) := by
    rw [chanPollFE, e, Run.bind_going, needRate_some (d.rate.trans hr), Run.bind_going, clear]
  have hangs : (u.logged (.chanPollFE false)).Hangs w := (h.drift d clear).logged _
  have same : u.agenda = s.agenda := by rw [d.frame]
  refine ⟨_, ?_, hangs, Nat.le_refl 1, ?_, ?_, ?_, fun _ hd => ?_⟩
  · rw [waitPass_of_clear sampled, waitTimeTest_of_unlimited h.unlimited,
      State.keepWaiting_of_waiting hangs.waiting]
  · simp [same]
  · rw [d.frame]; rfl
  · simp [same]
  · obtain rfl : s = u := by simpa [enterCall_of_quiet hd] using e
    rfl

/-- A move of the environment takes one action off the agenda and no sample. -/
theorem State.Hangs.applyMove {w : Wait} {s : State} {m : Move} {rest : List Action} (h : s.Hangs w)
    (ha : s.agenda = .move m :: rest) :
    (Machine.applyMove m { s with agenda := rest }).Hangs w ∧
      Polled 1 0 s (Machine.applyMove m { s with agenda := rest }) := by
  have d := applyMove_drift m { s with agenda := rest }
  have hm : m ≠ .signal true := fun e => (h.agenda (.move m) (ha ▸ List.mem_cons_self)).1 (congrArg _ e)
  have same : (Machine.applyMove m { s with agenda := rest }).agenda = rest := congrArg State.agenda d.frame
  refine ⟨(h.tail ha).drift d (applyMove_fe_clear hm h.clear), Nat.zero_le 1, ?_, ?_, ?_, fun hn => ?_⟩
  · rw [same, ha, List.length_cons]; omega
  · rw [d.frame]; simp
  · rw [same, ha]; exact List.suffix_cons ..
  · rw [ha] at hn; cases hn

/-- A step of the unlimited wait is a pass of the loop or a move of the environment. -/
theorem State.Hangs.step {w : Wait} {s : State} (h : s.Hangs w) :
    ∃ t polls, Machine.step s = .next t ∧ t.Hangs w ∧ Polled 1 polls s t := by
  have pass (e : Machine.step s = Machine.waitPass w s) :
      ∃ t polls, Machine.step s = .next t ∧ t.Hangs w ∧ Polled 1 polls s t := by
    obtain ⟨t, ht, hangs, polled⟩ := h.waitPass
    exact ⟨t, 1, e.trans ht, hangs, polled⟩
  match ha : s.agenda with
  | [] => exact pass (step_waiting h.waiting (.inl ha))
  | .command cw :: rest => exact pass (step_waiting h.waiting (.inr (.inl ⟨cw, rest, ha⟩)))
  | .regRead n :: rest => exact pass (step_waiting h.waiting (.inr (.inr (.inl ⟨n, rest, ha⟩))))
  | .regWrite n v :: rest => exact pass (step_waiting h.waiting (.inr (.inr (.inr ⟨n, v, rest, ha⟩))))
  | .reset st :: rest => exact absurd rfl ((h.agenda _ (ha ▸ List.mem_cons_self)).2.1 st)
  | .openChannel r :: rest => exact absurd rfl ((h.agenda _ (ha ▸ List.mem_cons_self)).2.2 r)
  | .move m :: rest =>
    obtain ⟨hangs, polled⟩ := h.applyMove ha
    exact ⟨_, 0, step_move ha, hangs, polled⟩

/-- A run begins with its first step. -/
theorem run_succ_of_step {M : Host.Core} {k : Nat} {s t : M.State} (h : M.step s = .next t) :
    M.run (k + 1) s = M.run k t := by
  rw [Host.Core.run, h]

/-- Any number of steps of the unlimited wait, by induction on it. -/
theorem State.Hangs.run {w : Wait} (k : Nat) {s : State} (h : s.Hangs w) :
    ∃ t polls, Sys2Proof.core.run k s = .next t ∧ Polled k polls s t := by
  induction k generalizing s with
  | zero => exact ⟨s, 0, rfl, Polled.refl s⟩
  | succ k ih =>
    obtain ⟨t, p, first, hangs, polled⟩ := h.step
    obtain ⟨u, q, later, polled'⟩ := ih hangs
    have all := polled.trans polled'
    rw [Nat.add_comm 1 k] at all
    exact ⟨u, p + q, (run_succ_of_step (M := Sys2Proof.core) first).trans later, all⟩

/-- Settles O25: the premises are kept by every step, so any number of steps is samples of 0 and moves. -/
theorem unlimitedWaitHangs : Obligations.UnlimitedWaitHangs := by
  intro s t0 k hw hf ho hn hm ha
  obtain ⟨t, polls, run, polled⟩ := State.Hangs.run k ⟨hw, rfl, hf, ho, hn, hm, ha⟩
  obtain ⟨atMost, atLeast, frame, agenda, alone⟩ := polled
  refine ⟨t, polls, run, atMost, by omega, frame, agenda, fun hae hde => ?_⟩
  rw [hae, List.length_nil] at atLeast
  obtain rfl : polls = k := by omega
  exact alone hae hde

end Sys2Proof.Machine

/-! Proofs of the statements about Transceiver Control (`42_transceiver_control.md`). -/

namespace Sys2Proof.Machine

open Sys2Proof.Config

/-! ### SLEEP -/

/-- The calls of SLEEP with a control line (`42_transceiver_control.md` R143). -/
def sleepCalls (b : Bool) : List Call := [.lineWrite (levelOf b), .delayUs 20]

/-- `t` is `s` after a SLEEP with ARG[0] = `b` on a control line that met no reset (`42_transceiver_control.md`
R143). -/
structure Slept (b : Bool) (s t : State) : Prop where
  frame : t = { s with
    status := 0#3, res := 0#8, count := 0#4, vcount := 0#4, waiting := none,
    slpctl := withSlpLevel s.slpctl b, line := { s.line with level := some (levelOf b) },
    trace := s.trace ++ sleepCalls b,
    chan := t.chan, wire := t.wire, now := t.now, during := t.during }
  rate : t.chan.rate = s.chan.rate
  env : s.envKept t (sleepCalls b)

/-- With a control line (HAS_SLP = 1). -/
theorem execSleep_with_line {s : State} (arg : Byte) (hn : s.noReset) (hs : hasSlp s.slpctl = true) :
    ∃ t, execSleep arg s = .next t ∧ Slept (enterSleep arg) s t := by
  obtain ⟨u, e, frame, rate, env⟩ := driveLine_ran (enterSleep arg) hn
  refine ⟨u.endCommand .ok 0#8 0#4 0#4, by rw [execSleep, if_pos hs, e, Run.finish_going], ?_, rate, env⟩
  rw [frame]; rfl

/-- Without a control line (HAS_SLP = 0). -/
theorem execSleep_without_line {s : State} (arg : Byte) (hs : hasSlp s.slpctl = false) :
    execSleep arg s = .next (s.endCommand .ok 0#8 0#4 0#4) := by
  rw [execSleep, hs]; rfl

/-- A SLEEP does not take the control line away. -/
theorem Slept.hasSlp {b : Bool} {s t : State} (h : Slept b s t) :
    Machine.hasSlp t.slpctl = Machine.hasSlp s.slpctl := by
  obtain ⟨-, -, has, -⟩ := withSlpLevel_fields s.slpctl b
  rw [congrArg State.slpctl h.frame, has]

theorem Slept.noReset {b : Bool} {s t : State} (h : Slept b s t) (hn : s.noReset) : t.noReset := by
  obtain ⟨⟨-, -, -, during⟩, -⟩ := h.env
  exact State.noReset_drop hn during

/-- TransceiverState is what SLP_LEVEL says once the line is driven (`10_state.md` R15). -/
theorem Slept.transceiver {b : Bool} {s t : State} (h : Slept b s t) (hs : Machine.hasSlp s.slpctl = true)
    (ho : slpOe s.slpctl = true) : t.transceiver = some (if b then .sleep else .normal) := by
  obtain ⟨level, oe, has, -⟩ := withSlpLevel_fields s.slpctl b
  simp only [State.transceiver, congrArg State.slpctl h.frame, level, oe, has, hs, ho, Bool.and_self, if_true]

/-- Settles O26: the frame of the SLEEP, and the fields of the SLPCTL it leaves. -/
theorem sleepDrivesLine : Obligations.SleepDrivesLine := by
  intro len arg s hn hs
  obtain ⟨t, e, slept⟩ := execSleep_with_line arg hn hs
  obtain ⟨level, oe, -, -⟩ := withSlpLevel_fields s.slpctl (enterSleep arg)
  have slpctl : t.slpctl = withSlpLevel s.slpctl (enterSleep arg) := congrArg State.slpctl slept.frame
  refine ⟨t, levelOf (enterSleep arg), e, ?_, ?_, ?_, ?_, slept.hasSlp.trans hs, fun ho => ?_, slept.rate,
    slept.env⟩
  · simp only [levelOf, enterSleep_eq, decide_eq_true_eq]
  · rw [slpctl]; exact slept.frame
  · rw [slpctl, level, enterSleep_eq]
  · rw [slpctl, oe]
  · simp only [slept.transceiver hs ho, enterSleep_eq, decide_eq_true_eq]

/-- Settles O27: without a control line SLEEP only ends the command. -/
theorem sleepWithoutLineMakesNoCall : Obligations.SleepWithoutLineMakesNoCall :=
  fun _ arg _ hs => execSleep_without_line arg hs

/-- Settles O28: with a control line the second SLEEP drives it to the level it has and sets SLP_LEVEL to its value;
without one both make no call. -/
theorem sleepIsIdempotent : Obligations.SleepIsIdempotent := by
  intro len arg s t hn e
  cases hs : hasSlp s.slpctl with
  | true =>
    obtain ⟨t', e', first⟩ := execSleep_with_line arg hn hs
    cases e'.symm.trans e
    obtain ⟨u, eu, second⟩ := execSleep_with_line arg (first.noReset hn) (first.hasSlp.trans hs)
    obtain ⟨-, -, -, again⟩ := withSlpLevel_fields s.slpctl (enterSleep arg)
    refine ⟨u, sleepCalls (enterSleep arg), eu, ?_, ?_, ?_, ?_, ?_, ?_,
      congrArg State.trace first.frame, congrArg State.trace second.frame⟩
    · rw [second.frame, congrArg State.slpctl first.frame]; exact again
    all_goals rw [second.frame, first.frame]
  | false =>
    cases (execSleep_without_line arg hs).symm.trans e
    exact ⟨_, [], execSleep_without_line arg hs, rfl, rfl, rfl, rfl, rfl, rfl, (List.append_nil _).symm,
      (List.append_nil _).symm⟩

/-! ### What a command may do to SLPCTL -/

/-- The first reset in the gaps of `s` is the last gap consumed on the way to `t` (`70_reset_and_hazards.md` R210). -/
def State.metReset (s t : State) : Prop :=
  ∃ k g st, s.during[k]? = some g ∧ g.reset = some st ∧
    (∀ g' ∈ s.during.take k, g'.reset = none) ∧ t.during = s.during.drop (k + 1)

/-- SLPCTL is as before, or a reset came before a call (`10_state.md` R16). -/
def State.slpctlKeptOrReset (s t : State) : Prop := t.slpctl = s.slpctl ∨ s.metReset t

theorem Abandoned.metReset {s t : State} {plan : List Call} (h : Abandoned s t plan) : s.metReset t := by
  obtain ⟨k, g, st, hg, hst, -, before, -, -, -, -, during⟩ := h
  exact ⟨k, g, st, hg, hst, before, during⟩

theorem Made.slpctl {s u : State} {cs : List Call} (h : Made s u cs) : u.slpctl = s.slpctl := by rw [h.frame]

theorem State.onlyResults.slpctl {s t : State} (h : s.onlyResults t) : t.slpctl = s.slpctl := by rw [h]

section Commands

variable {s t : State}

/-- What follows the calls of a command may use that they were made and met no reset. -/
theorem Run.MadeOrAbandoned.finish_slpctl {α : Type} {plan : List Call} {C : List Call → Prop} {r : Run α}
    {k : α → State → Out} (h : r.MadeOrAbandoned s plan C)
    (hk : ∀ a u cs, Made s u cs → C cs → k a u = .next t → s.slpctlKeptOrReset t)
    (e : r.finish k = .next t) : s.slpctlKeptOrReset t :=
  (h.finish (fun a u cs hm hc e => .inl (hk a u cs hm hc e)) e).elim id fun ha => .inr ha.metReset

/-- The calls of a command do not write SLPCTL, so it is kept where what follows them keeps it. -/
theorem Run.MadeOrAbandoned.slpctlKept {α : Type} {plan : List Call} {C : List Call → Prop} {r : Run α}
    {k : α → State → Out} (h : r.MadeOrAbandoned s plan C)
    (hk : ∀ a u, k a u = .next t → t.slpctl = u.slpctl) (e : r.finish k = .next t) :
    s.slpctlKeptOrReset t :=
  h.finish_slpctl (fun a u _ hm _ e => .inl ((hk a u e).trans hm.slpctl)) e

/-- The end of a command does not write SLPCTL either. -/
theorem Run.MadeOrAbandoned.slpctlKept_ended {α : Type} {plan : List Call} {C : List Call → Prop} {r : Run α}
    (h : r.MadeOrAbandoned s plan C) {st : Status} {res : Byte} {c v : BitVec 4}
    (e : (r.finish fun _ u => .next (u.endCommand st res c v)) = .next t) : s.slpctlKeptOrReset t :=
  h.slpctlKept (fun _ _ e => by cases e; rfl) e

/-- The time test after calls that queued no byte. -/
theorem waitTimeTest_slpctl {u : State} {cs : List Call} {w : Wait} (h : Made s u cs)
    (hc : bytesWritten cs = []) (e : waitTimeTest w u = .next t) : s.slpctlKeptOrReset t := by
  unfold waitTimeTest at e
  split at e
  · cases e; exact .inl h.slpctl
  · refine (timeNow_madeOrAbandoned h (.nothing hc)).slpctlKept (fun _ _ e => ?_) e
    split at e <;> (cases e; rfl)

/-- A pass of WBREAK's loop after calls that queued no byte. -/
theorem waitPass_slpctl {u : State} {cs : List Call} {w : Wait} (h : Made s u cs)
    (hc : bytesWritten cs = []) (e : waitPass w u = .next t) : s.slpctlKeptOrReset t := by
  refine (chanPollFE_madeOrAbandoned h (.nothing hc)).finish_slpctl (fun fe _ _ hm hd e => ?_) e
  cases fe with
  | true => cases e; exact .inl hm.slpctl
  | false =>
    obtain ⟨_, rfl⟩ := hd
    exact waitTimeTest_slpctl hm (by simp [hc, bytesWritten]) e

theorem execWbreak_slpctl (e : execWbreak s = .next t) : s.slpctlKeptOrReset t := by
  refine (timeNow_madeOrAbandoned (Made.refl s) (.nothing rfl)).finish_slpctl (fun _ _ _ hm hd e => ?_) e
  obtain ⟨_, rfl⟩ := hd
  exact waitPass_slpctl hm rfl e

/-- A transmit command with a payload: whatever the bytes, its calls were made or abandoned. -/
theorem payload_slpctl {len : BitVec 4} {r : List Byte → Run Unit}
    (hr : ∀ p, ∃ plan, (r p).MadeOrAbandoned s plan (· = plan))
    (e : (if lenTooLong len then .next (s.raise .badLen 0#4)
      else withPayload len s fun p => endTransmit (r p)) = .next t) : s.slpctlKeptOrReset t := by
  split at e
  · cases e; exact .inl rfl
  · obtain ⟨p, _, _, e⟩ := withPayload_next e
    obtain ⟨_, made⟩ := hr p
    exact made.slpctlKept_ended e

theorem execRead_slpctl {len : BitVec 4} (e : execRead len s = .next t) : s.slpctlKeptOrReset t := by
  refine (chanRead_madeOrAbandoned len.toNat (Made.refl s) (.nothing rfl)).slpctlKept (fun bytes u e => ?_) e
  obtain ⟨st, v, judged, _⟩ := judgeRead_ended bytes (storeRead bytes u)
  rw [judged] at e
  cases e; rfl

theorem execRdstrm_slpctl {len : BitVec 4} (e : execRdstrm len s = .next t) : s.slpctlKeptOrReset t :=
  (chanRead_madeOrAbandoned len.toNat (Made.refl s) (.nothing rfl)).slpctlKept
    (fun _ _ e => by cases e; rfl) e

/-- Every command but SLEEP, whatever resets come inside it. -/
theorem exec_slpctl {i : Instr} (hi : ∀ len arg, i ≠ .sleep len arg) (e : exec i s = .next t) :
    s.slpctlKeptOrReset t := by
  cases i with
  | cksum => exact .inl (State.onlyResults.slpctl (execCksum_onlyResults e))
  | vcksum => exact .inl (State.onlyResults.slpctl (execVcksum_onlyResults e))
  | genid => cases e; exact .inl rfl
  | valid => exact .inl (State.onlyResults.slpctl (execValid_onlyResults e))
  | brk => exact (pulse_madeOrAbandoned _ _ (Made.refl s) List.prefix_rfl).slpctlKept_ended e
  | wbreak => exact execWbreak_slpctl e
  | wakeup => exact (pulse_madeOrAbandoned _ _ (Made.refl s) List.prefix_rfl).slpctlKept_ended e
  | sleep len arg => exact absurd rfl (hi len arg)
  | write _ arg => exact payload_slpctl (fun p => ⟨_, frame_madeOrAbandoned arg (p ++ [checksum p]) s⟩) e
  | wrreq _ arg => exact (sendHeader_madeOrAbandoned arg (Made.refl s) List.prefix_rfl).slpctlKept_ended e
  | wrresp =>
    exact payload_slpctl
      (fun p => ⟨_, chanWrites_madeOrAbandoned (p ++ [checksum p]) (Made.refl s) List.prefix_rfl⟩) e
  | wrstrm => exact payload_slpctl (fun p => ⟨_, frame_madeOrAbandoned s.ident p s⟩) e
  | read => exact execRead_slpctl e
  | rdstrm => exact execRdstrm_slpctl e
  | setid => cases e; exact .inl rfl
  | reservedF => cases e; exact .inl rfl

end Commands

/-! ### What a step may do to TransceiverState -/

theorem regRead_slpctl {n : BitVec 5} {s t : State} (e : regRead n s = .next t) : t.slpctl = s.slpctl := by
  unfold regRead at e
  split at e
  · cases e
  · cases e; rfl

/-- No register write reaches SLPCTL (`10_state.md` R30). -/
theorem regWrite_slpctl (n : BitVec 5) (v : Nat) (s : State) : (regWrite n v s).slpctl = s.slpctl := by
  unfold regWrite
  split
  · rfl
  · split <;> rfl

theorem applyMove_slpctl (m : Move) (s : State) : (applyMove m s).slpctl = s.slpctl := by
  rw [(applyMove_drift m s).frame]

section Steps

variable {s t : State} (hr : ∀ st rest, s.agenda ≠ .reset st :: rest) (e : step s = .next t)
include hr e

/-- With a WBREAK in progress a step is a pass of its loop or a move of the environment. -/
theorem step_waiting_slpctl {w : Wait} (hw : s.waiting = some w) : s.slpctlKeptOrReset t := by
  have pass (hs : step s = waitPass w s) : s.slpctlKeptOrReset t :=
    waitPass_slpctl (Made.refl s) rfl (hs.symm.trans e)
  match ha : s.agenda with
  | [] => exact pass (step_waiting hw (.inl ha))
  | .command cw :: rest => exact pass (step_waiting hw (.inr (.inl ⟨cw, rest, ha⟩)))
  | .regRead n :: rest => exact pass (step_waiting hw (.inr (.inr (.inl ⟨n, rest, ha⟩))))
  | .regWrite n v :: rest => exact pass (step_waiting hw (.inr (.inr (.inr ⟨n, v, rest, ha⟩))))
  | .reset st :: rest => exact absurd ha (hr st rest)
  | .openChannel r :: rest => rw [step_openChannel_of_waiting hw ha] at e; cases e
  | .move m :: rest =>
    rw [step_move ha] at e
    cases e
    exact .inl (applyMove_slpctl m { s with agenda := rest })

/-- Between commands a step performs a command, which is no SLEEP, or is the turn of another agent. -/
theorem step_free_slpctl (hw : s.waiting = none)
    (hc : ∀ cw rest len arg, s.agenda = .command cw :: rest → decodeWord cw ≠ .sleep len arg) :
    s.slpctlKeptOrReset t := by
  match ha : s.agenda with
  | [] => rw [step_nil ha, blockTurn_of_free hw] at e; cases e; exact .inl rfl
  | .command cw :: rest =>
    rw [step_command hw ha] at e
    exact exec_slpctl (s := { s with agenda := rest }) (fun len arg => hc cw rest len arg ha) e
  | .regRead n :: rest =>
    rw [step_regRead ha, portTurn_of_free hw] at e
    exact .inl (regRead_slpctl (s := { s with agenda := rest }) e)
  | .regWrite n v :: rest =>
    rw [step_regWrite ha, portTurn_of_free hw] at e
    cases e
    exact .inl (regWrite_slpctl n v { s with agenda := rest })
  | .reset st :: rest => exact absurd ha (hr st rest)
  | .openChannel r :: rest => rw [step_openChannel hw ha] at e; cases e; exact .inl rfl
  | .move m :: rest =>
    rw [step_move ha] at e
    cases e
    exact .inl (applyMove_slpctl m { s with agenda := rest })

end Steps

/-- TransceiverState is a function of SLPCTL (`10_state.md` R15). -/
theorem State.transceiver_congr {s t : State} (h : t.slpctl = s.slpctl) : t.transceiver = s.transceiver := by
  rw [State.transceiver, State.transceiver, h]

/-- Where TransceiverState moved, SLPCTL was not kept. -/
theorem State.slpctlKeptOrReset.metReset_of_moved {s t : State} (h : s.slpctlKeptOrReset t)
    (hne : t.transceiver ≠ s.transceiver) : s.metReset t :=
  Or.resolve_left h fun kept => hne (State.transceiver_congr kept)

/-- Settles O49: a step that is neither a reset of the agenda nor a SLEEP with the ports free keeps SLPCTL, or a reset
came before one of its calls. -/
theorem onlySleepAndResetMoveTransceiver : Obligations.OnlySleepAndResetMoveTransceiver := by
  intro s t e hne
  by_cases hr : ∃ st rest, s.agenda = .reset st :: rest
  · exact .inr (.inl hr)
  have hr' : ∀ st rest, s.agenda ≠ .reset st :: rest := fun st rest h => hr ⟨st, rest, h⟩
  cases hw : s.waiting with
  | some w => exact .inr (.inr ((step_waiting_slpctl hr' e hw).metReset_of_moved hne))
  | none =>
    by_cases hc : ∃ cw rest len arg, s.agenda = .command cw :: rest ∧ decodeWord cw = .sleep len arg
    · exact .inl ⟨rfl, hc⟩
    · exact .inr (.inr ((step_free_slpctl hr' e hw fun cw rest len arg ha hd =>
        hc ⟨cw, rest, len, arg, ha, hd⟩).metReset_of_moved hne))

end Sys2Proof.Machine

/-! Proofs of the statements about the frame operations (`43_frame_operations.md`). -/

namespace Sys2Proof.Machine

open Sys2Proof.Config

/-! ### WRITE, WRREQ, WRRESP and WRSTRM -/

/-- LEN above MAX_PAYLOAD is too long (`43_frame_operations.md` R151). -/
theorem lenTooLong_of_gt {len : BitVec 4} (h : 8 < len.toNat) : lenTooLong len = true :=
  decide_eq_true h

/-- Settles O35: the three commands test LEN before anything else. -/
theorem tooLongPayloadIsRefused : Obligations.TooLongPayloadIsRefused := by
  intro len arg s h
  have long : lenTooLong len = true := lenTooLong_of_gt h
  refine ⟨?write, ?wrresp, ?wrstrm⟩
  case write => rw [exec, execWrite, if_pos long]; rfl
  case wrresp => rw [exec, execWrresp, if_pos long]; rfl
  case wrstrm => rw [exec, execWrstrm, if_pos long]; rfl

/-- WRRESP of the bytes BUF holds sends the bytes and their checksum (`43_frame_operations.md` R159). -/
theorem execWrresp_holds {len : BitVec 4} {p : List Byte} {s : State} (h8 : len.toNat ≤ 8)
    (hl : p.length = len.toNat) (hp : s.holds p) :
    execWrresp len s = endTransmit (chanWrites (p ++ [checksum p]) s) := by
  simp only [execWrresp, lenTooLong_of_le h8, withPayload_holds hl hp, Bool.false_eq_true, if_false]

/-- A transmit command ends when its last call is made: only the result registers are written
(`43_frame_operations.md` R153). -/
theorem Ran.endTransmit {s u : State} {cs : List Call} (ran : Ran s u cs) :
    ∃ t, Machine.endTransmit (.going () u) = .next t ∧ s.endedAs t .ok 0#8 0#4 0#4 cs ∧ s.envKept t cs ∧
      t.chan.rate = u.chan.rate := by
  refine ⟨u.endCommand .ok 0#8 0#4 0#4, rfl, ?_, ⟨ran.env, ran.rx⟩, rfl⟩
  rw [ran.frame]
  rfl

/-- WRITE and WRSTRM make all the calls of their frame and leave the channel at BAUD (`43_frame_operations.md` R152,
R162). -/
theorem frame_completes {s : State} (id : Byte) (p : List Byte) (hn : s.noReset) :
    ∃ t, endTransmit ((sendHeader id s).bind fun _ u => chanWrites p u) = .next t ∧
      s.endedAs t .ok 0#8 0#4 0#4 (headerCalls s.baud id ++ writeCalls p) ∧
      s.envKept t (headerCalls s.baud id ++ writeCalls p) ∧ t.chan.rate = some s.baud := by
  obtain ⟨u, eu, header, hu, _⟩ := sendHeader_ran id hn
  obtain ⟨v, _, ev, bytes, hv, _⟩ := chanWrites_ran p (header.noReset hn) hu
  rw [eu, Run.bind_going, ev, ← hv]
  exact (header.trans bytes).endTransmit

/-- Settles O30: the frame with ARG, the payload and the checksum over the payload alone. -/
theorem writeCompletes : Obligations.WriteCompletes := by
  intro len arg p s hn h8 hl hp
  rw [exec, execWrite_holds arg h8 hl hp]
  exact frame_completes arg (p ++ [checksum p]) hn

/-- Settles O31: the header with ARG; LEN is not given to the command. -/
theorem wrreqCompletes : Obligations.WrreqCompletes := by
  intro len arg s hn
  obtain ⟨u, eu, header, hu, _⟩ := sendHeader_ran arg hn
  rw [exec, execWrreq, eu, ← hu]
  exact header.endTransmit

/-- Settles O32: the payload and its checksum at the rate the channel has. -/
theorem wrrespCompletes : Obligations.WrrespCompletes := by
  intro len arg p s hn ho h8 hl hp
  obtain ⟨r, hr⟩ := Option.isSome_iff_exists.1 ho
  obtain ⟨u, _, eu, bytes, hu, _⟩ := chanWrites_ran (p ++ [checksum p]) hn hr
  rw [exec, execWrresp_holds h8 hl hp, eu, hr, ← hu]
  exact bytes.endTransmit

/-- Settles O33: the frame with IDENT and the payload. -/
theorem wrstrmCompletes : Obligations.WrstrmCompletes := by
  intro len arg p s hn h8 hl hp
  rw [exec, execWrstrm_holds h8 hl hp]
  exact frame_completes s.ident p hn

/-! ### The bytes of a read in BUF -/

/-- A byte below the first one written is as before. -/
theorem Memory.readByte_writeBytes_of_lt {m : Memory} {a k : Nat} {bs : List Byte} (h : k < a) :
    (m.writeBytes a bs).readByte k = m.readByte k := by
  induction bs generalizing m a with
  | nil => rfl
  | cons b bs ih =>
    rw [Memory.writeBytes, ih (Nat.lt_succ_of_lt h), Memory.readByte_writeByte, if_neg (Nat.ne_of_lt h)]

/-- From the first index on the bytes written are read back, and beyond them what was there before. -/
theorem Memory.readByte_writeBytes (m : Memory) (a : Nat) (bs : List Byte) (i : Nat) :
    (m.writeBytes a bs).readByte (a + i) = bs[i]?.or (m.readByte (a + i)) := by
  induction bs generalizing m a i with
  | nil => rfl
  | cons b bs ih =>
    rw [Memory.writeBytes]
    cases i with
    | zero => exact (readByte_writeBytes_of_lt (Nat.lt_succ_self a)).trans (by simp [readByte_writeByte])
    | succ i =>
      have shift : a + (i + 1) = a + 1 + i := by omega
      have other : a + 1 + i ≠ a := by omega
      rw [shift, ih, readByte_writeByte, if_neg other, List.getElem?_cons_succ]

/-- What BUF holds after a read (`43_frame_operations.md` R166, R172). -/
theorem storeRead_readByte (bytes : List Byte) (s : State) (k : Nat) :
    (storeRead bytes s).buf.readByte k =
      if h : k < bytes.length then some bytes[k] else s.buf.readByte k := by
  have written := Memory.readByte_writeBytes s.buf 0 bytes k
  rw [Nat.zero_add] at written
  rw [storeRead_buf, written]
  split
  · next h => rw [List.getElem?_eq_getElem h, Option.some_or]
  · next h => rw [List.getElem?_eq_none (Nat.not_lt.1 h), Option.none_or]

/-! ### READ and RDSTRM -/

/-- `t` is `s` after a command that took `bytes` with one ChanRead(`n`) into BUF and ended with STATUS `st` and VCOUNT
`v`: what READ and RDSTRM have in common (`43_frame_operations.md` R166, R172, `20_memory.md` R46). -/
def State.tookAs (s t : State) (n : Nat) (bytes : List Byte) (st : Status) (v : BitVec 4) : Prop :=
  t = { s with
    status := st.code, res := 0#8, count := countOf bytes, vcount := v,
    waiting := none, buf := t.buf, trace := s.trace ++ [.chanRead n bytes],
    chan := t.chan, wire := t.wire, now := t.now, during := t.during } ∧
  s.envMoved t [.chanRead n bytes] ∧ t.chan.rate = s.chan.rate ∧ bytes.length ≤ n ∧
  (∃ arrived, (s.chan.rx ++ arrived).flatten = bytes ++ t.chan.rx.flatten) ∧
  (s.during = [] → bytes = (s.chan.rx.headD []).take n) ∧
  ∀ k, t.buf.readByte k = if h : k < bytes.length then some bytes[k] else s.buf.readByte k

/-- The read of an open channel without a reset inside it, whatever results the command then ends with. -/
theorem chanRead_took {s : State} (n : Nat) (hn : s.noReset) (ho : s.channelOpen) :
    ∃ u bytes, chanRead n s = .going bytes u ∧ u.ident = s.ident ∧ u.params = s.params ∧
      ∀ st v, s.tookAs ((storeRead bytes u).endCommand st 0#8 (countOf bytes) v) n bytes st v := by
  obtain ⟨r, hr⟩ := Option.isSome_iff_exists.1 ho
  obtain ⟨u, bytes, e, frame, env, rate, bounded, consumed, quiet⟩ := chanRead_ran n hn hr
  refine ⟨u, bytes, e, by rw [frame], by rw [frame],
    fun st v => ⟨?_, env, rate, bounded, consumed, fun hd => (quiet hd).1, fun k => ?_⟩⟩
  · rw [frame]; rfl
  · rw [State.endCommand_buf, storeRead_readByte, congrArg State.buf frame]

/-- Settles O37: after its read RDSTRM ends with ST_OK and VCOUNT 0. -/
theorem rdstrmCompletes : Obligations.RdstrmCompletes := by
  intro len arg s hn ho
  obtain ⟨u, bytes, e, _, _, took⟩ := chanRead_took len.toNat hn ho
  exact ⟨_, bytes, by rw [exec, execRdstrm, e]; rfl, took .ok 0#4⟩

/-- Nothing read: the first test of READ (`43_frame_operations.md` R166). -/
theorem judgeRead_nil (s : State) : judgeRead [] s = s.raise .short 0#4 := rfl

/-- The second test of READ, of the first byte read. -/
theorem judgeRead_of_ne_ident {s : State} {b : Byte} (h : b ≠ s.ident) (bs : List Byte) :
    judgeRead (b :: bs) s = s.raise .ident (countOf (b :: bs)) := by
  simp only [judgeRead, identifierValid, beq_eq_false_iff_ne.2 h, Bool.false_eq_true, if_false]

/-- The third test of READ: an identifier byte and no other. -/
theorem judgeRead_of_ident_alone {s : State} {b : Byte} (h : b = s.ident) :
    judgeRead [b] s = s.raise .short (countOf [b]) := by
  simp only [judgeRead, identifierValid, beq_iff_eq.2 h, if_true, List.getLast?_nil]

/-- The bytes that the fourth test of READ sums: those before the last, with or without the identifier byte. -/
theorem summedBytes_frame (includesId : Bool) (b : Byte) (mid : List Byte) (last : Byte) :
    summedBytes includesId (b :: (mid ++ [last])) = if includesId then b :: mid else mid := by
  rw [summedBytes, ← List.cons_append, List.dropLast_concat, List.drop_one, List.tail_cons]

/-- The fourth test of READ: the last byte read against the checksum of the earlier ones. -/
theorem judgeRead_of_frame {s : State} {b : Byte} (h : b = s.ident) (mid : List Byte) (last : Byte) :
    judgeRead (b :: (mid ++ [last])) s =
      if checksum (if s.params.readCksumIncludesId then b :: mid else mid) = last then
        s.endCommand .ok 0#8 (countOf (b :: (mid ++ [last]))) (countOf (b :: (mid ++ [last])))
      else s.raise .checksum (countOf (b :: (mid ++ [last]))) := by
  simp only [judgeRead, identifierValid, beq_iff_eq.2 h, if_true, List.getLast?_concat, summedBytes_frame]

/-- The codes are those of `10_state.md` R19 in the order of the outcomes, so a code tells its outcome. -/
theorem Status.code_injective : Function.Injective Status.code :=
  Function.LeftInverse.injective (g := fun c => Status.ofNat c.toNat) fun st => by cases st <;> rfl

/-- The ends of a command with different statuses or different VCOUNT differ. -/
theorem State.endCommand_inj {s : State} {st st' : Status} {r r' : Byte} {c c' v v' : BitVec 4}
    (h : s.endCommand st r c v = s.endCommand st' r' c' v') : st = st' ∧ v = v' :=
  ⟨Status.code_injective (congrArg State.status h), congrArg State.vcount h⟩

/-- Settles O36: after its read READ ends as the first of its tests that fails says, or with ST_OK. -/
theorem readCompletes : Obligations.ReadCompletes := by
  intro len arg s hn ho
  obtain ⟨u, bytes, e, ident, params, took⟩ := chanRead_took len.toNat hn ho
  obtain ⟨st, v, judged, _⟩ := judgeRead_ended bytes (storeRead bytes u)
  obtain ⟨frame, env, rate, bounded, consumed, quiet, buf⟩ := took st v
  refine ⟨_, bytes, st, v, by rw [exec, execRead, e, Run.finish_going, judged], frame, env, rate, bounded,
    consumed, quiet, buf, ?nothing, ?wrongIdent, ?identAlone, ?checksum⟩
  case nothing =>
    rintro rfl
    exact State.endCommand_inj (judged.symm.trans (judgeRead_nil _))
  case wrongIdent =>
    rintro b bs rfl hb
    exact State.endCommand_inj (judged.symm.trans (judgeRead_of_ne_ident (ident ▸ hb) bs))
  case identAlone =>
    rintro rfl
    exact State.endCommand_inj (judged.symm.trans (judgeRead_of_ident_alone ident.symm))
  case checksum =>
    rintro mid last rfl
    rw [judgeRead_of_frame (s := storeRead _ u) ident.symm, storeRead_params, params] at judged
    refine ⟨fun pass => ?_, fun fail => ?_⟩
    · rw [if_pos pass] at judged
      exact State.endCommand_inj judged.symm
    · rw [if_neg fail] at judged
      exact State.endCommand_inj judged.symm

end Sys2Proof.Machine

/-! Proofs of the statements about the ends of commands (`60_exceptions.md`). -/

namespace Sys2Proof.Machine

open Sys2Proof.Config

/-! ### Between commands -/

/-- Settles O8: an empty agenda leaves the turn to the block, which idles with the ports free. -/
theorem idleBlockStays : Obligations.IdleBlockStays := fun _ free idle =>
  (step_nil idle).trans (blockTurn_of_free free)

/-! ### The statuses of a command's end -/

/-- A command has ended in `t` with one of the statuses `sts`, and after an error RES and VCOUNT are 0
(`60_exceptions.md` R190). -/
def State.endsAmong (sts : List Status) (t : State) : Prop :=
  t.waiting = none ∧ ∃ st ∈ sts, t.status = st.code ∧ (st ≠ .ok → t.res = 0#8 ∧ t.vcount = 0#4)

section Ends

variable {s t : State} {sts : List Status}

theorem State.endCommand_endsAmong (s : State) {st : Status} {res : Byte} {vcount : BitVec 4} (hm : st ∈ sts)
    (hz : st ≠ .ok → res = 0#8 ∧ vcount = 0#4) (count : BitVec 4) :
    (s.endCommand st res count vcount).endsAmong sts :=
  ⟨rfl, st, hm, rfl, hz⟩

/-- An end with ST_OK may leave any results. -/
theorem State.ok_endsAmong (s : State) (hm : .ok ∈ sts) (res : Byte) (count vcount : BitVec 4) :
    (s.endCommand .ok res count vcount).endsAmong sts :=
  s.endCommand_endsAmong hm (fun error => absurd rfl error) count

/-- Every error is raised, which clears RES and VCOUNT. -/
theorem State.raise_endsAmong (s : State) {st : Status} (hm : st ∈ sts) (count : BitVec 4) :
    (s.raise st count).endsAmong sts :=
  s.endCommand_endsAmong hm (fun _ => ⟨rfl, rfl⟩) count

theorem State.endedAs.endsAmong {st : Status} {res : Byte} {c v : BitVec 4} {cs : List Call}
    (h : s.endedAs t st res c v cs) (hm : st ∈ sts) (hz : st ≠ .ok → res = 0#8 ∧ v = 0#4) :
    t.endsAmong sts :=
  ⟨congrArg State.waiting h, st, hm, congrArg State.status h, fun error => by
    rw [congrArg State.res h, congrArg State.vcount h]; exact hz error⟩

/-- Calls that meet no reset leave the end of the command to what follows them. -/
theorem Run.MadeOrAbandoned.finish_endsAmong {α : Type} {plan : List Call} {C : List Call → Prop} {r : Run α}
    {k : α → State → Out} (h : r.MadeOrAbandoned s plan C) (hn : s.noReset)
    (hk : ∀ a u, k a u = .next t → t.endsAmong sts) (e : r.finish k = .next t) : t.endsAmong sts :=
  h.finish_of_noReset hn (fun a u _ _ _ => hk a u) e

/-- A command that ends with ST_OK once its calls are made. -/
theorem Run.MadeOrAbandoned.ok_endsAmong {α : Type} {plan : List Call} {C : List Call → Prop} {r : Run α}
    {res : Byte} {c v : BitVec 4} (h : r.MadeOrAbandoned s plan C) (hn : s.noReset) (hm : .ok ∈ sts)
    (e : (r.finish fun _ u => .next (u.endCommand .ok res c v)) = .next t) : t.endsAmong sts :=
  h.finish_endsAmong hn (fun _ u e => by cases e; exact u.ok_endsAmong hm res c v) e

theorem execCksum_endsAmong {len : BitVec 4} (e : execCksum len s = .next t) : t.endsAmong [.ok] := by
  obtain ⟨p, _, _, e⟩ := withPayload_next e
  cases e; exact s.ok_endsAmong (by decide) _ _ _

theorem execVcksum_endsAmong {len : BitVec 4} (e : execVcksum len s = .next t) :
    t.endsAmong [.ok, .checksum, .short] := by
  unfold execVcksum at e
  split at e
  · cases e; exact s.raise_endsAmong (by decide) _
  · obtain ⟨p, _, _, e⟩ := withPayload_next e
    split at e
    · cases e; exact s.raise_endsAmong (by decide) _
    · cases e; exact s.ok_endsAmong (by decide) _ _ _
    · cases e; exact s.raise_endsAmong (by decide) _

theorem execValid_endsAmong {arg : Byte} (e : execValid arg s = .next t) : t.endsAmong [.ok, .ident] := by
  unfold execValid at e
  split at e
  · cases e; exact s.ok_endsAmong (by decide) _ _ _
  · cases e; exact s.raise_endsAmong (by decide) _

theorem execSleep_endsAmong {arg : Byte} (hn : s.noReset) (e : execSleep arg s = .next t) :
    t.endsAmong [.ok] := by
  unfold execSleep at e
  split at e
  · obtain ⟨u, hu, _⟩ := driveLine_ran (enterSleep arg) hn
    rw [hu] at e
    cases e; exact u.ok_endsAmong (by decide) _ _ _
  · cases e; exact s.ok_endsAmong (by decide) _ _ _

/-- A transmit command with a payload fails at its length test or not at all (`43_frame_operations.md` R151). -/
theorem payload_endsAmong {len : BitVec 4} {r : List Byte → Run Unit} (hn : s.noReset)
    (hr : ∀ p, ∃ plan, (r p).MadeOrAbandoned s plan (· = plan))
    (e : (if lenTooLong len then .next (s.raise .badLen 0#4)
      else withPayload len s fun p => endTransmit (r p)) = .next t) : t.endsAmong [.ok, .badLen] := by
  split at e
  · cases e; exact s.raise_endsAmong (by decide) _
  · obtain ⟨p, _, _, e⟩ := withPayload_next e
    obtain ⟨_, made⟩ := hr p
    exact made.ok_endsAmong hn (by decide) e

/-- READ ends with ST_OK or with the error of the first of its tests that fails (`60_exceptions.md` R189). -/
theorem judgeRead_endsAmong (bytes : List Byte) (s : State) :
    (judgeRead bytes s).endsAmong [.ok, .ident, .checksum, .short] := by
  unfold judgeRead
  split
  · exact s.raise_endsAmong (by decide) _
  · split
    · split
      · exact s.raise_endsAmong (by decide) _
      · split
        · exact s.ok_endsAmong (by decide) _ _ _
        · exact s.raise_endsAmong (by decide) _
    · exact s.raise_endsAmong (by decide) _

theorem execRead_endsAmong {len : BitVec 4} (hn : s.noReset) (e : execRead len s = .next t) :
    t.endsAmong [.ok, .ident, .checksum, .short] :=
  (chanRead_madeOrAbandoned len.toNat (Made.refl s) (.nothing rfl)).finish_endsAmong hn
    (fun bytes u e => by cases e; exact judgeRead_endsAmong bytes (storeRead bytes u)) e

theorem execRdstrm_endsAmong {len : BitVec 4} (hn : s.noReset) (e : execRdstrm len s = .next t) :
    t.endsAmong [.ok] :=
  (chanRead_madeOrAbandoned len.toNat (Made.refl s) (.nothing rfl)).finish_endsAmong hn
    (fun _ _ e => by cases e; exact State.ok_endsAmong _ (by decide) _ _ _) e

/-- Every command but WBREAK ends, with a status of its row of the table (`60_exceptions.md` section 1). -/
theorem exec_endsAmong {i : Instr} (hn : s.noReset) (hi : ∀ len arg, i ≠ .wbreak len arg)
    (e : exec i s = .next t) : t.endsAmong (statusesOf i) := by
  cases i with
  | cksum => exact execCksum_endsAmong e
  | vcksum => exact execVcksum_endsAmong e
  | genid => cases e; exact s.ok_endsAmong (.head _) _ _ _
  | valid => exact execValid_endsAmong e
  | brk => exact (pulse_madeOrAbandoned _ _ (Made.refl s) List.prefix_rfl).ok_endsAmong hn (.head _) e
  | wbreak len arg => exact absurd rfl (hi len arg)
  | wakeup => exact (pulse_madeOrAbandoned _ _ (Made.refl s) List.prefix_rfl).ok_endsAmong hn (.head _) e
  | sleep => exact execSleep_endsAmong hn e
  | write _ arg => exact payload_endsAmong hn (fun p => ⟨_, frame_madeOrAbandoned arg (p ++ [checksum p]) s⟩) e
  | wrreq _ arg =>
    exact (sendHeader_madeOrAbandoned arg (Made.refl s) List.prefix_rfl).ok_endsAmong hn (.head _) e
  | wrresp =>
    exact payload_endsAmong hn
      (fun p => ⟨_, chanWrites_madeOrAbandoned (p ++ [checksum p]) (Made.refl s) List.prefix_rfl⟩) e
  | wrstrm => exact payload_endsAmong hn (fun p => ⟨_, frame_madeOrAbandoned s.ident p s⟩) e
  | read => exact execRead_endsAmong hn e
  | rdstrm => exact execRdstrm_endsAmong hn e
  | setid => cases e; exact State.ok_endsAmong _ (.head _) _ _ _
  | reservedF => cases e; exact s.raise_endsAmong (.head _) _

/-! ### A WBREAK ends or stays in progress -/

/-- `t` has a WBREAK in progress and the result registers of `s` (`10_state.md` R22). -/
def State.inProgress (s t : State) : Prop :=
  t.waiting ≠ none ∧ t.status = s.status ∧ t.res = s.res ∧ t.count = s.count ∧ t.vcount = s.vcount

theorem State.waitsAs.inProgress {w : Wait} {cs : List Call} (h : s.waitsAs t w cs) : s.inProgress t := by
  rw [h]; exact ⟨nofun, rfl, rfl, rfl, rfl⟩

/-- Of the four outcomes of a pass of WBREAK's loop two end it and two go on waiting. -/
theorem State.passOutcome.endsAmong_or_inProgress {w : Wait} {pre : List Call} (h : s.passOutcome t w pre) :
    t.endsAmong [.ok, .timeout] ∨ s.inProgress t := by
  obtain ⟨-, ⟨sampled, -⟩ | ⟨-, unlimited, -⟩ | ⟨-, t1, -, timedOut, -⟩ | ⟨-, t1, -, inTime, -⟩⟩ := h
  · exact .inl (State.endedAs.endsAmong sampled (by decide) (by decide))
  · exact .inr (State.waitsAs.inProgress unlimited)
  · exact .inl (State.endedAs.endsAmong timedOut (by decide) (by decide))
  · exact .inr (State.waitsAs.inProgress inTime)

/-- A WBREAK that answers a next state had an open channel, so it has made its first pass. -/
theorem exec_wbreak_endsAmong_or_inProgress {len : BitVec 4} {arg : Byte} (hn : s.noReset)
    (e : exec (.wbreak len arg) s = .next t) : t.endsAmong [.ok, .timeout] ∨ s.inProgress t := by
  cases hr : s.chan.rate with
  | none => exact nomatch (execWbreak_closed hn hr).symm.trans e
  | some r =>
    obtain ⟨u, t0, hu, -, outcome⟩ := wbreakMakesItsFirstPass len arg s hn (Option.isSome_of_mem hr)
    cases hu.symm.trans e
    exact outcome.endsAmong_or_inProgress

end Ends

/-- Settles O47: a WBREAK by the outcome of its first pass, every other command by its row of the table. -/
theorem commandsEndWithTheirStatuses : Obligations.CommandsEndWithTheirStatuses := by
  intro i s t hn e
  by_cases hi : ∃ len arg, i = .wbreak len arg
  · obtain ⟨len, arg, rfl⟩ := hi
    exact (exec_wbreak_endsAmong_or_inProgress hn e).imp id fun ⟨waits, kept⟩ => ⟨waits, ⟨len, arg, rfl⟩, kept⟩
  · exact .inl (exec_endsAmong hn (fun len arg h => hi ⟨len, arg, h⟩) e)

end Sys2Proof.Machine

/-! Proofs of the statements about reset and the interplay of commands (`70_reset_and_hazards.md`). -/

namespace Sys2Proof.Machine

open Sys2Proof.Config

/-! ### A reset between commands -/

theorem applyReset_of_valid {st : Straps} (h : st.valid) (s : State) :
    applyReset st s = .next (resetSequence st s) :=
  if_pos h

/-- Settles O42: the step is the reset sequence, which leaves channel, wire and clock alone. -/
theorem resetSequenceValues : Obligations.ResetSequenceValues := by
  intro s st rest ha hv
  rw [step_reset ha, applyReset_of_valid hv, resetSequence_eq]
  exact ⟨_, rfl, fun line => if_pos line⟩

/-- Settles O43: the reset sequence overwrites the registers, and what it leaves alone is as in `State.reset`. -/
theorem resetStateIsAfterReset : Obligations.ResetStateIsAfterReset := by
  intro s ha wire now during portOut params chan
  rw [step_reset ha, applyReset_of_valid (by decide), resetSequence_eq]
  simp only [wire, now, during, portOut, params, chan]
  rfl

/-- Settles O44: straps below the constraint are refused. -/
theorem badStrapsAreRefused : Obligations.BadStrapsAreRefused := by
  intro s st rest ha low
  rw [step_reset ha]
  exact if_neg (Nat.not_le.2 low)

/-- `State.reset` is left as it is by a reset with its own straps. -/
theorem applyReset_reset : applyReset defaultStraps State.reset = .next State.reset := by
  rw [applyReset_of_valid (by decide), resetSequence_eq]
  rfl

/-- Settles O53: `State.reset` is what a reset leaves, and every reset leaves the invariant. -/
theorem resetStateSatisfiesInvariant : Obligations.ResetStateSatisfiesInvariant :=
  applyReset_inv (by decide : State.reset.params.valid) (fun _ => rfl) applyReset_reset

/-! ### A command runs or is abandoned -/

/-- `t` is reached from `s` by calls before which no reset came; BAUD and TIMEOUT are as before. -/
def State.ranTo (s t : State) : Prop :=
  ∃ cs, t.trace = s.trace ++ cs ∧ s.envMoved t cs ∧ t.baud = s.baud ∧ t.timeout = s.timeout ∧
    ∀ g ∈ s.during.take cs.length, g.reset = none

/-- A command begun in `s` whose calls are `plan` ran to `t`, or the first reset that came has abandoned it. -/
def State.ranOrAbandoned (s t : State) (plan : List Call) : Prop := s.ranTo t ∨ Abandoned s t plan

/-- `t` is `s` but for IDENT, BUF, the result registers and a WBREAK in progress: what a command may write when its
calls are made. -/
abbrev State.endsIn (s t : State) : Prop :=
  t = { s with
    ident := t.ident, buf := t.buf, status := t.status, res := t.res, count := t.count, vcount := t.vcount,
    waiting := t.waiting }

section Commands

variable {s t : State} {plan : List Call}

theorem Made.ranTo {u : State} {cs : List Call} (h : Made s u cs) (f : u.endsIn t) : s.ranTo t := by
  refine ⟨cs, ?_, ?_, ?_, ?_, h.noReset⟩
  · rw [f]; exact congrArg State.trace h.frame
  · rw [f]; exact h.env
  · rw [f]; rw [h.frame]
  · rw [f]; rw [h.frame]

/-- A command that makes no call meets no reset. -/
theorem State.endsIn.ranOrAbandoned (f : s.endsIn t) : s.ranOrAbandoned t plan := .inl ((Made.refl s).ranTo f)

/-- What follows the calls of a command may use that they were made and met no reset. -/
theorem Run.MadeOrAbandoned.finish_ranOrAbandoned {α : Type} {C : List Call → Prop} {r : Run α}
    {k : α → State → Out} (h : r.MadeOrAbandoned s plan C)
    (hk : ∀ a u cs, Made s u cs → C cs → k a u = .next t → s.ranOrAbandoned t plan)
    (e : r.finish k = .next t) : s.ranOrAbandoned t plan :=
  (h.finish (fun a u cs hm hc e => .inl (hk a u cs hm hc e)) e).elim id .inr

/-- A command ends, or goes on waiting, after its calls. -/
theorem Run.MadeOrAbandoned.ranOrAbandoned {α : Type} {C : List Call → Prop} {r : Run α}
    {k : α → State → Out} (h : r.MadeOrAbandoned s plan C) (hk : ∀ a u, k a u = .next t → u.endsIn t)
    (e : r.finish k = .next t) : s.ranOrAbandoned t plan :=
  h.finish_ranOrAbandoned (fun a u _ hm _ e => .inl (hm.ranTo (hk a u e))) e

/-- A command that ends as soon as its calls are made. -/
theorem Run.MadeOrAbandoned.ranOrAbandoned_ended {α : Type} {C : List Call → Prop} {r : Run α} {st : Status}
    {res : Byte} {c v : BitVec 4} (h : r.MadeOrAbandoned s plan C)
    (e : (r.finish fun _ u => .next (u.endCommand st res c v)) = .next t) : s.ranOrAbandoned t plan :=
  h.ranOrAbandoned (fun _ _ e => by cases e; rfl) e

theorem waitTimeTest_ranOrAbandoned {u : State} {cs : List Call} {w : Wait} (h : Made s u cs)
    (hc : bytesWritten cs = []) (e : waitTimeTest w u = .next t) : s.ranOrAbandoned t [] := by
  unfold waitTimeTest at e
  split at e
  · cases e; exact .inl (h.ranTo rfl)
  · refine (timeNow_madeOrAbandoned h (.nothing hc)).ranOrAbandoned (fun _ _ e => ?_) e
    split at e <;> (cases e; rfl)

theorem waitPass_ranOrAbandoned {u : State} {cs : List Call} {w : Wait} (h : Made s u cs)
    (hc : bytesWritten cs = []) (e : waitPass w u = .next t) : s.ranOrAbandoned t [] := by
  refine (chanPollFE_madeOrAbandoned h (.nothing hc)).finish_ranOrAbandoned (fun fe _ _ hm hd e => ?_) e
  cases fe with
  | true => cases e; exact .inl (hm.ranTo rfl)
  | false =>
    obtain ⟨_, rfl⟩ := hd
    exact waitTimeTest_ranOrAbandoned hm (by simp [hc, bytesWritten]) e

theorem execWbreak_ranOrAbandoned (e : execWbreak s = .next t) : s.ranOrAbandoned t [] := by
  refine (timeNow_madeOrAbandoned (Made.refl s) (.nothing rfl)).finish_ranOrAbandoned
    (fun _ _ _ hm hd e => ?_) e
  obtain ⟨_, rfl⟩ := hd
  exact waitPass_ranOrAbandoned hm rfl e

/-- `s` with the control line and SLP_LEVEL driven to `b`. -/
def State.driven (s : State) (b : Bool) : State := (s.setLevel (levelOf b)).setSlpLevel b

/-- A reset overwrites SLPCTL and, where it is configured, the line, so it does not tell whether they were driven. -/
theorem abandoned_driven {b : Bool} : Abandoned (s.driven b) t plan ↔ Abandoned s t plan := Iff.rfl

/-- Driving the line changes SLPCTL between the two calls, so the calls are counted from the driven state. -/
theorem driveLine_madeOrAbandoned (b : Bool) (s : State) :
    (driveLine b s).MadeOrAbandoned (s.driven b) [] (· = sleepCalls b) := by
  rcases (Made.refl s).enterCall (plan := []) (.nothing rfl) with ⟨u, e, m⟩ | ⟨o, e, ho⟩
  · have made : Made (s.driven b) (((u.setLevel (levelOf b)).logged (.lineWrite (levelOf b))).setSlpLevel b)
        [.lineWrite (levelOf b)] := by
      refine ⟨?_, ⟨m.wire, m.bytes, m.now, m.during⟩, m.noReset⟩
      rw [m.frame]
      simp [State.driven, State.setLevel, State.setSlpLevel, State.logged]
    rw [driveLine, lineWrite, e]
    exact delayUs_madeOrAbandoned tSettle made (.nothing rfl)
  · rw [driveLine, lineWrite, e]
    exact fun t ht => abandoned_driven.2 (ho t ht)

theorem execSleep_ranOrAbandoned {arg : Byte} (e : execSleep arg s = .next t) : s.ranOrAbandoned t [] := by
  unfold execSleep at e
  split at e
  · exact (driveLine_madeOrAbandoned (enterSleep arg) s).ranOrAbandoned_ended e
  · cases e; exact State.endsIn.ranOrAbandoned rfl

/-- The bytes a command reads from BUF are the payload of its calls (`10_state.md` R23). -/
theorem payloadOf_holds {len : BitVec 4} {p : List Byte} (hl : p.length = len.toNat) (hp : s.holds p) :
    payloadOf len s = p := by
  rw [payloadOf, ← hl, State.holds_readBytes hp]; rfl

/-- A transmit command with a payload: its calls begin when LEN is legal and the payload at hand. -/
theorem payload_ranOrAbandoned {len : BitVec 4} {r : List Byte → Run Unit}
    (hr : ¬ 8 < len.toNat → (r (payloadOf len s)).MadeOrAbandoned s plan (· = plan))
    (e : (if lenTooLong len then .next (s.raise .badLen 0#4)
      else withPayload len s fun p => endTransmit (r p)) = .next t) : s.ranOrAbandoned t plan := by
  split at e
  · cases e; exact State.endsIn.ranOrAbandoned rfl
  · next short =>
    obtain ⟨p, hl, hp, e⟩ := withPayload_next e
    have made := hr fun long => short (lenTooLong_of_gt long)
    rw [payloadOf_holds hl hp] at made
    exact made.ranOrAbandoned_ended e

theorem execRead_ranOrAbandoned {len : BitVec 4} (e : execRead len s = .next t) : s.ranOrAbandoned t [] := by
  refine (chanRead_madeOrAbandoned len.toNat (Made.refl s) (.nothing rfl)).ranOrAbandoned
    (fun bytes u e => ?_) e
  obtain ⟨st, v, judged, _⟩ := judgeRead_ended bytes (storeRead bytes u)
  rw [judged] at e
  cases e; rfl

theorem execRdstrm_ranOrAbandoned {len : BitVec 4} (e : execRdstrm len s = .next t) :
    s.ranOrAbandoned t [] :=
  (chanRead_madeOrAbandoned len.toNat (Made.refl s) (.nothing rfl)).ranOrAbandoned
    (fun _ _ e => by cases e; rfl) e

theorem execCksum_endsIn {len : BitVec 4} (e : execCksum len s = .next t) : s.endsIn t := by
  obtain ⟨p, _, _, e⟩ := withPayload_next e
  cases e; rfl

theorem execVcksum_endsIn {len : BitVec 4} (e : execVcksum len s = .next t) : s.endsIn t := by
  unfold execVcksum at e
  split at e
  · cases e; rfl
  · obtain ⟨p, _, _, e⟩ := withPayload_next e
    split at e <;> (cases e; rfl)

theorem execValid_endsIn {arg : Byte} (e : execValid arg s = .next t) : s.endsIn t := by
  rw [execValid_eq] at e
  split at e <;> (cases e; rfl)

/-- Every command, whatever resets come inside it. -/
theorem exec_ranOrAbandoned {i : Instr} (e : exec i s = .next t) :
    s.ranOrAbandoned t (queueingCalls i s) := by
  cases i with
  | cksum => exact (execCksum_endsIn e).ranOrAbandoned
  | vcksum => exact (execVcksum_endsIn e).ranOrAbandoned
  | genid => cases e; exact State.endsIn.ranOrAbandoned rfl
  | valid => exact (execValid_endsIn e).ranOrAbandoned
  | brk => exact (pulse_madeOrAbandoned _ _ (Made.refl s) List.prefix_rfl).ranOrAbandoned_ended e
  | wbreak => exact execWbreak_ranOrAbandoned e
  | wakeup => exact (pulse_madeOrAbandoned _ _ (Made.refl s) List.prefix_rfl).ranOrAbandoned_ended e
  | sleep => exact execSleep_ranOrAbandoned e
  | write len arg =>
    refine payload_ranOrAbandoned (fun h8 => ?_) e
    rw [queueingCalls, if_neg h8]
    exact frame_madeOrAbandoned arg _ s
  | wrreq _ arg => exact (sendHeader_madeOrAbandoned arg (Made.refl s) List.prefix_rfl).ranOrAbandoned_ended e
  | wrresp len =>
    refine payload_ranOrAbandoned (fun h8 => ?_) e
    rw [queueingCalls, if_neg h8]
    exact chanWrites_madeOrAbandoned _ (Made.refl s) List.prefix_rfl
  | wrstrm len =>
    refine payload_ranOrAbandoned (fun h8 => ?_) e
    rw [queueingCalls, if_neg h8]
    exact frame_madeOrAbandoned s.ident _ s
  | read => exact execRead_ranOrAbandoned e
  | rdstrm => exact execRdstrm_ranOrAbandoned e
  | setid => cases e; exact State.endsIn.ranOrAbandoned rfl
  | reservedF => cases e; exact State.endsIn.ranOrAbandoned rfl

end Commands

/-- Settles O46, command by command. -/
theorem commandRunsOrIsAbandoned : Obligations.CommandRunsOrIsAbandoned := fun _ _ _ e =>
  exec_ranOrAbandoned e

/-! ### A reset before the third call of a BREAK -/

section Gaps

variable {s : State} {g : Gap} {rest : List Gap} (hd : s.during = g :: rest)
include hd

/-- A gap without a reset is passed. -/
theorem enterCall_of_gap (hg : g.reset = none) : ∃ u, enterCall s = .going () u ∧ Drift 1 s u := by
  rcases enterCall_cases s with going | ⟨g', rest', st, _, hd', hg', _⟩
  · exact going
  · cases hd.symm.trans hd'
    cases hg.symm.trans hg'

/-- The reset of a gap comes after the moves of the environment there (`70_reset_and_hazards.md` R210). -/
theorem enterCall_of_reset {st : Straps} (hg : g.reset = some st) :
    ∃ u, enterCall s = .halted (applyReset st u) ∧ Drift 1 s u := by
  rcases enterCall_cases s with ⟨u, going, _⟩ | ⟨g', rest', st', u, hd', hg', drift, halted⟩
  · simp [enterCall, hd, hg] at going
  · cases hd.symm.trans hd'
    cases hg.symm.trans hg'
    exact ⟨u, halted, drift⟩

theorem chanOpen_of_gap (hg : g.reset = none) (r : Rate) :
    ∃ t, chanOpen r s = .going () t ∧ Ran s t [.chanOpen r] ∧ t.chan.rate = some r := by
  obtain ⟨u, hu, drift⟩ := enterCall_of_gap hd hg
  exact ⟨(u.setRate r).logged (.chanOpen r), by rw [chanOpen, hu]; rfl,
    drift.ran rfl List.prefix_rfl (by simp [bytesWritten]) rfl, rfl⟩

theorem chanWrite_of_gap (hg : g.reset = none) {r : Rate} (hr : s.chan.rate = some r) (b : Byte) :
    ∃ t, chanWrite b s = .going () t ∧ Ran s t [.chanWrite b] ∧ t.chan.rate = some r := by
  obtain ⟨u, hu, drift⟩ := enterCall_of_gap hd hg
  have rate : u.chan.rate = some r := drift.rate.trans hr
  exact ⟨(u.queued b).logged (.chanWrite b),
    by rw [chanWrite, hu, Run.bind_going, needRate_some rate]; rfl,
    drift.ran rfl List.prefix_rfl (by simp [bytesWritten]) rfl, rate⟩

theorem chanFlush_of_reset {st : Straps} (hg : g.reset = some st) :
    ∃ u, chanFlush s = .halted (applyReset st u) ∧ Drift 1 s u := by
  obtain ⟨u, hu, drift⟩ := enterCall_of_reset hd hg
  exact ⟨u, by rw [chanFlush, hu]; rfl, drift⟩

end Gaps

/-- The gaps a run has not consumed. -/
theorem Ran.during {s t : State} {cs : List Call} (h : Ran s t cs) : t.during = s.during.drop cs.length := by
  obtain ⟨-, -, -, during⟩ := h.env
  exact during

/-- After calls and one more drift the reset sequence leaves what it would have left before them. -/
theorem Ran.resetAs {s v u : State} {cs : List Call} {n : Nat} (ran : Ran s v cs) (drift : Drift n v u)
    (st : Straps) : s.resetAs (resetSequence st u) st := by
  rw [resetSequence_eq]
  refine ⟨?_, fun line => if_pos line⟩
  have frame := drift.frame
  rw [ran.frame] at frame
  rw [frame]

/-- The reset sequence does not touch the channel, the wire and the gaps still to come (`70_reset_and_hazards.md`
R214). -/
theorem resetSequence_environment (st : Straps) (s : State) :
    (resetSequence st s).chan = s.chan ∧ (resetSequence st s).wire = s.wire ∧
    (resetSequence st s).during = s.during := by
  rw [resetSequence_eq]; exact ⟨rfl, rfl, rfl⟩

/-- Settles O45: the first two calls of the pulse pass their gaps, and the reset stands in the gap of the third. -/
theorem resetAbandonsBreak : Obligations.ResetAbandonsBreak := by
  intro len arg s g1 g2 g3 rest st hd h1 h2 h3 hv
  obtain ⟨t1, e1, ran1, rate1⟩ := chanOpen_of_gap hd h1 (halfRate s.baud)
  have hd1 : t1.during = g2 :: g3 :: rest := by rw [ran1.during, hd]; rfl
  obtain ⟨t2, e2, ran2, rate2⟩ := chanWrite_of_gap hd1 h2 rate1 breakByte
  have hd2 : t2.during = g3 :: rest := by rw [ran2.during, hd1]; rfl
  obtain ⟨u, e3, drift⟩ := chanFlush_of_reset hd2 h3
  have ran := ran1.trans ran2
  obtain ⟨-, bytes, -, -⟩ := ran.env
  obtain ⟨-, kept⟩ := drift.conserves
  obtain ⟨chan, wire, during⟩ := resetSequence_environment st u
  refine ⟨resetSequence st u, ?_, ran.resetAs drift st, ?_, ?_, ?_, ?_⟩
  · rw [exec, execBreak, sendBreak, pulse, e1, Run.bind_going, e2, Run.bind_going, e3,
      applyReset_of_valid hv]
    rfl
  · rw [resetSequence_eq]
  · rw [chan, drift.rate, rate2]; rfl
  · rw [chan, wire, kept, bytes]; rfl
  · rw [during, drift.during, hd2]; rfl

/-! ### READ of what WRITE queues -/

theorem byteSum_cons (b : Byte) (p : List Byte) : byteSum (b :: p) = b + byteSum p := by
  rw [byteSum, byteSum, List.foldl_cons, BitVec.add_comm, List.foldl_assoc]

/-- A byte more changes the checksum unless it is 0x00. -/
theorem checksum_cons_eq_iff {b : Byte} {p : List Byte} : checksum (b :: p) = checksum p ↔ b = 0x00#8 := by
  rw [checksum, checksum, BitVec.not_inj, byteSum_cons, BitVec.add_left_eq_self]

/-- With no agent moving a read takes the whole of a first portion that it has room for (`20_memory.md` R46). -/
theorem chanRead_of_quiet {s : State} {n : Nat} {bytes : List Byte} {rest : List (List Byte)}
    (hd : s.during = []) (ho : s.channelOpen) (hn : bytes.length ≤ n) (hrx : s.chan.rx = bytes :: rest) :
    chanRead n s = .going bytes ((s.setRx rest).logged (.chanRead n bytes)) := by
  obtain ⟨r, hr⟩ := Option.isSome_iff_exists.1 ho
  rw [chanRead, enterCall_of_quiet hd, Run.bind_going, needRate_some hr, Run.bind_going, hrx, rxAnswer, rxAfter,
    List.take_of_length_le hn, if_pos hn]

/-- READ's checksum test on a frame whose last byte is the checksum of the payload alone fails exactly when the sum
includes an identifier byte that is not 0x00 (`70_reset_and_hazards.md` R227). -/
theorem checksum_summed_eq_iff {includesId : Bool} {b : Byte} {p : List Byte} :
    checksum (if includesId then b :: p else p) = checksum p ↔ ¬ (includesId = true ∧ b ≠ 0x00#8) := by
  cases includesId with
  | true => simp [checksum_cons_eq_iff]
  | false => simp

/-- The status after the tests of READ on such a frame: they all pass but the fourth (`43_frame_operations.md` R166). -/
theorem judgeRead_written_status {s : State} {b : Byte} (h : b = s.ident) (p : List Byte) :
    (judgeRead (b :: (p ++ [checksum p])) s).status =
      if s.params.readCksumIncludesId = true ∧ b ≠ 0x00#8 then 2#3 else 0#3 := by
  rw [judgeRead_of_frame h]
  by_cases mismatch : s.params.readCksumIncludesId = true ∧ b ≠ 0x00#8
  · rw [if_neg (mt checksum_summed_eq_iff.1 (not_not_intro mismatch)), if_pos mismatch]; rfl
  · rw [if_pos (checksum_summed_eq_iff.2 mismatch), if_neg mismatch]; rfl

/-- Whatever its tests say, READ counts the bytes and leaves the channel as it is. -/
theorem judgeRead_count_chan (bytes : List Byte) (s : State) :
    (judgeRead bytes s).count = countOf bytes ∧ (judgeRead bytes s).chan = s.chan := by
  obtain ⟨st, v, judged, _⟩ := judgeRead_ended bytes s
  rw [judged]
  exact ⟨rfl, rfl⟩

/-- Settles O38: the read takes the whole portion, and of READ's tests only the fourth can fail. -/
theorem readOfWrittenFrame : Obligations.ReadOfWrittenFrame := by
  intro len arg p rest s hd ho hl hrx
  have length : (s.ident :: (p ++ [checksum p])).length = p.length + 2 := by
    rw [List.length_cons, List.length_append]; rfl
  rw [exec, execRead, chanRead_of_quiet hd ho (length ▸ hl) hrx, Run.finish_going]
  obtain ⟨count, chan⟩ := judgeRead_count_chan (s.ident :: (p ++ [checksum p])) _
  refine ⟨_, rfl, judgeRead_written_status rfl p, count.trans ?_, congrArg Channel.rx chan⟩
  rw [countOf, length]

end Sys2Proof.Machine
